-- ==== Sys2Proof/Word.lean ====
section
/-! DEFINITION. The bit-vector types of the command port and the data path (00_scope.md R12, R14). -/

namespace Sys2Proof

/-- A message byte, a table index, a bit count, a response code: 8 bits (R12, R70, R72). -/
abbrev Byte := BitVec 8

/-- The command word `CW`: 16 bits (R70). -/
abbrev CmdWord := BitVec 16

/-- `OPD`, `RDATA` and the storage `DW` of the reflection unit: 64 bits (R12).  A W-bit value of an
instance (`W ≤ 64`) is stored in its low `W` bits. -/
abbrev Word := BitVec 64

end Sys2Proof
end

