-- ==== Sys2Proof/Syntax.lean ====
section
/-! DEFINITION. The ten commands of 30_encoding.md R74 with their operands, and the reasons a command word is illegal (R76). -/

namespace Sys2Proof

/-- A decoded command.  Its operands are used exactly as they stand (30_encoding.md R73); a bus `OPD`
that the command ignores (formats Z and B, R71) is no operand. -/
inductive Instr where
  /-- REFLECT `n, v` (format V): `n` is `imm8`, `v` is `OPD` (40_reflect.md R92). -/
  | reflect (n : Byte) (v : Word)
  /-- PARITY `b` (format B) (44_parity.md R152). -/
  | parity (b : Byte)
  /-- CRC_INIT (format Z) (41_bitserial_divider.md R106). -/
  | crcInit
  /-- REF_BYTE `b` (format B) (41_bitserial_divider.md R107). -/
  | refByte (b : Byte)
  /-- FAST_BYTE `b` (format B) (43_table_engine.md R136). -/
  | fastByte (b : Byte)
  /-- CRC_FINAL (format Z) (41_bitserial_divider.md R108). -/
  | crcFinal
  /-- CRC_CHECK `e` (format X): `e` is `OPD` (45_check_status.md R158). -/
  | crcCheck (e : Word)
  /-- BUILD_TABLE (format Z) (42_table_rom.md R122). -/
  | buildTable
  /-- TBL_RD `i` (format B) (42_table_rom.md R124). -/
  | tblRd (i : Byte)
  /-- RD_STATUS (format Z) (45_check_status.md R160). -/
  | rdStatus
  deriving DecidableEq, Repr

/-- The four command formats (30_encoding.md R71), which differ only in which fields are used. -/
inductive Format where
  /-- `imm8` must be 0x00, `OPD` is ignored -/
  | z
  /-- `imm8` is a byte or an index, `OPD` is ignored -/
  | b
  /-- `imm8` is a bit count, `OPD` the value to reflect -/
  | v
  /-- `imm8` must be 0x00, `OPD` is the expected checksum -/
  | x
  deriving DecidableEq, Repr

/-- A command as the host presents it: the pair `(CW, OPD)` (30_encoding.md R70). -/
structure Command where
  cw : CmdWord
  opd : Word
  deriving DecidableEq, Repr

/-- Why a command word is illegal (30_encoding.md R76 (a) and (b)). -/
inductive Illegal where
  /-- (a) the opcode is in no row of the opcode map -/
  | unassignedOpcode (opcode : Byte)
  /-- (b) a format Z or X opcode whose must-be-zero `imm8` is not zero -/
  | nonzeroImm8 (opcode imm8 : Byte)
  deriving DecidableEq, Repr

end Sys2Proof
end

