-- ==== Sys2Proof/Decode.lean ====
section
/-! DEFINITION. The opcode map (30_encoding.md R74), the decoder, total on all command words (R75), and the encoder. -/

namespace Sys2Proof

/-- `cw.opcode = CW[15:8]` (R70). -/
def opcodeOf (cw : CmdWord) : Byte :=
  cw.extractLsb' 8 8

/-- `cw.imm8 = CW[7:0]` (R70). -/
def imm8Of (cw : CmdWord) : Byte :=
  cw.extractLsb' 0 8

/-- The command word with these two fields (R70). -/
def cmdWord (opcode imm8 : Byte) : CmdWord :=
  opcode ++ imm8

/-- A format Z or X row: the command when `imm8` is 0x00, else an illegal word (R71, R76 (b)). -/
def mustBeZero (cw : CmdWord) (i : Instr) : Except Illegal Instr :=
  if imm8Of cw = 0 then .ok i else .error (.nonzeroImm8 (opcodeOf cw) (imm8Of cw))

/-- `decode` (R75): the command of the matching row of R74 with its `imm8` field and the operand bus,
or the reason the word is illegal (R76).  Whether a word is legal does not depend on `opd`. -/
def decode (cw : CmdWord) (opd : Word) : Except Illegal Instr :=
  match (opcodeOf cw).toNat with
  | 0x01 => .ok (.reflect (imm8Of cw) opd)
  | 0x02 => .ok (.parity (imm8Of cw))
  | 0x10 => mustBeZero cw .crcInit
  | 0x11 => .ok (.refByte (imm8Of cw))
  | 0x12 => .ok (.fastByte (imm8Of cw))
  | 0x13 => mustBeZero cw .crcFinal
  | 0x14 => mustBeZero cw (.crcCheck opd)
  | 0x20 => mustBeZero cw .buildTable
  | 0x21 => .ok (.tblRd (imm8Of cw))
  | 0x30 => mustBeZero cw .rdStatus
  | _ => .error (.unassignedOpcode (opcodeOf cw))

/-- The command that stands for an instruction (R74); an ignored `OPD` is driven as 0 (R80). -/
def encode : Instr → Command
  | .reflect n v => ⟨cmdWord 0x01 n, v⟩
  | .parity b => ⟨cmdWord 0x02 b, 0⟩
  | .crcInit => ⟨cmdWord 0x10 0, 0⟩
  | .refByte b => ⟨cmdWord 0x11 b, 0⟩
  | .fastByte b => ⟨cmdWord 0x12 b, 0⟩
  | .crcFinal => ⟨cmdWord 0x13 0, 0⟩
  | .crcCheck e => ⟨cmdWord 0x14 0, e⟩
  | .buildTable => ⟨cmdWord 0x20 0, 0⟩
  | .tblRd i => ⟨cmdWord 0x21 i, 0⟩
  | .rdStatus => ⟨cmdWord 0x30 0, 0⟩

/-- The format of an instruction's command (R71). -/
def formatOf : Instr → Format
  | .reflect _ _ => .v
  | .parity _ => .b
  | .crcInit => .z
  | .refByte _ => .b
  | .fastByte _ => .b
  | .crcFinal => .z
  | .crcCheck _ => .x
  | .buildTable => .z
  | .tblRd _ => .b
  | .rdStatus => .z

/-- Whether a format uses the operand bus (R71). -/
def usesOpd : Format → Bool
  | .z => false
  | .b => false
  | .v => true
  | .x => true

/-- The match and mask of the row of R74 that an instruction belongs to. -/
def rowOf : Instr → CmdWord × CmdWord
  | .reflect _ _ => (0x0100, 0xFF00)
  | .parity _ => (0x0200, 0xFF00)
  | .crcInit => (0x1000, 0xFFFF)
  | .refByte _ => (0x1100, 0xFF00)
  | .fastByte _ => (0x1200, 0xFF00)
  | .crcFinal => (0x1300, 0xFFFF)
  | .crcCheck _ => (0x1400, 0xFFFF)
  | .buildTable => (0x2000, 0xFFFF)
  | .tblRd _ => (0x2100, 0xFF00)
  | .rdStatus => (0x3000, 0xFFFF)

/-- The rows (match, mask) of the opcode map, in its order (R74). -/
def opcodeRows : List (CmdWord × CmdWord) :=
  [(0x0100, 0xFF00), (0x0200, 0xFF00), (0x1000, 0xFFFF), (0x1100, 0xFF00), (0x1200, 0xFF00),
   (0x1300, 0xFFFF), (0x1400, 0xFFFF), (0x2000, 0xFFFF), (0x2100, 0xFF00), (0x3000, 0xFFFF)]

/-- A word selects a row when `(CW and mask) == match` (R74). -/
def selects (cw : CmdWord) (row : CmdWord × CmdWord) : Bool :=
  cw &&& row.2 == row.1

/-- The command whose `CW` has the bits `w`, of which `nbits` are given and the others are 0, with
`OPD = 0` (the opcode table numbers no bit of the operand bus; log entry 10). -/
def tableCommand (nbits w : Nat) : Command :=
  ⟨BitVec.ofNat 16 (w % 2 ^ nbits), 0⟩

/-- What the decoder reads from an opcode-table word (the host's fixed name). -/
def decodeTableWord (nbits w : Nat) : Option Instr :=
  match decode (tableCommand nbits w).cw (tableCommand nbits w).opd with
  | .ok i => some i
  | .error _ => none

end Sys2Proof
end

