-- ==== Sys2Proof/Config.lean ====
section
/-! DEFINITION. The parameter set `P` of an instance (00_scope.md R7) and the presets the spec names (R9, R10). -/

namespace Sys2Proof

/-- The parameter set `P = (W, POLY, INIT, XOROUT, REFIN, REFOUT)` (00_scope.md R7): the document's
immutable StandardParameters record.  Which records are legal is `Params.legal` (R8). -/
structure Params where
  /-- The bit count of a CRC value. -/
  W : Nat
  /-- The generator polynomial without its `x^W` term, bit 0 included (90_conflicts.md C2). -/
  POLY : Word
  /-- The initial remainder. -/
  INIT : Word
  /-- The final XOR value. -/
  XOROUT : Word
  /-- Whether each input byte is reflected. -/
  REFIN : Bool
  /-- Whether the final remainder is reflected. -/
  REFOUT : Bool
  deriving DecidableEq, Repr

/-- The number of entries of the lookup table: "exactly 256" (R12). -/
def tableSize : Nat := 256

/-- The storage width `DW` of the reflection unit, and so the largest bit count REFLECT takes (R12). -/
def reflectStorageWidth : Nat := 64

/-- The CRC-8 preset, the only one the document gives with numbers (R9). -/
def Params.crc8 : Params :=
  { W := 8, POLY := 0x31, INIT := 0xFF, XOROUT := 0x00, REFIN := false, REFOUT := false }

/-- PRESUMED, unsafe (log entry 12): the CRC-16/CCITT preset, its numbers from general knowledge (R10). -/
def Params.crc16Ccitt : Params :=
  { W := 16, POLY := 0x1021, INIT := 0xFFFF, XOROUT := 0x0000, REFIN := false, REFOUT := false }

/-- PRESUMED, unsafe (log entry 12): the CRC-16 preset, its numbers from general knowledge (R10). -/
def Params.crc16 : Params :=
  { W := 16, POLY := 0x8005, INIT := 0x0000, XOROUT := 0x0000, REFIN := true, REFOUT := true }

/-- PRESUMED, unsafe (log entry 12): the CRC-32 preset, its numbers from general knowledge (R10). -/
def Params.crc32 : Params :=
  { W := 32, POLY := 0x04C11DB7, INIT := 0xFFFFFFFF, XOROUT := 0xFFFFFFFF, REFIN := true, REFOUT := true }

end Sys2Proof
end

