-- ==== Sys2Proof/Machine/State.lean ====
section
/-! DEFINITION. The machine's state (10_state.md R20 to R29), its reset value (R33), and the reasons a step can stop. -/

namespace Sys2Proof.Machine

/-- The lookup table memory `TABLE` (10_state.md R24): the entries written, as (index, W-bit entry) cells in
strictly rising order of index.  An unlisted entry has no value (log entries 5 and 6). -/
abbrev Memory := List (Nat × Word)

/-- The status register `STATUS` (10_state.md R25).  Its reserved bits 3:2 are hard-wired 0 and so not stored
(log entry 8); the 8-bit view is `statusByte`. -/
structure Status where
  /-- bit 0, `TV`: table valid (R26) -/
  tv : Bool
  /-- bit 1, `ERR`: a fault is latched, the block is halted (R27) -/
  err : Bool
  /-- bits 7:4, `ECODE`: the code of the latched fault (R28) -/
  ecode : BitVec 4
  deriving DecidableEq, Repr

/-- What the host can do to the block (70_reset_and_hazards.md R190): issue a command, or reset it. -/
inductive Event where
  | command (c : Command)
  | reset
  deriving DecidableEq, Repr

/-- A response: the pair `(RC, RDATA)` (30_encoding.md R72). -/
structure Response where
  rc : Byte
  rdata : Word
  deriving DecidableEq, Repr

/-- The three faults the block raises (60_exceptions.md R170).  Raising one is a next state (log entry 9). -/
inductive FaultCode where
  | illegalCommand
  | tableNotBuilt
  | reflectRange
  deriving DecidableEq, Repr

/-- The state: the spec's triple (REM, TABLE, STATUS) (R20), the instance constant `P`, and the two ends of
the command port. -/
structure State where
  /-- The instance's parameter set `P`; no step changes it (R7, R29; log entry 3). -/
  params : Params
  /-- `REM` (R23), in the low `W` bits (log entry 7). -/
  rem : Word
  /-- `TABLE` (R24). -/
  table : Memory
  /-- `STATUS` (R25). -/
  status : Status
  /-- The host's pending events, oldest first (the model's own; log entry 1). -/
  events : List Event
  /-- The responses delivered so far, newest first (the model's own; log entry 2). -/
  responses : List Response
  deriving DecidableEq, Repr

/-- `STATUS = 0x00` (R33). -/
def Status.reset : Status :=
  { tv := false, err := false, ecode := 0 }

/-- The state right after the reset of an instance with parameter set `P` (10_state.md R33): `REM = INIT`,
`STATUS = 0x00`, no table entry has a value, and the host has issued nothing yet. -/
def State.resetOf (P : Params) : State :=
  { params := P
    rem := (P.INIT.setWidth P.W).setWidth 64
    table := []
    status := .reset
    events := []
    responses := [] }

/-- The reset state of the instance the model starts from, the CRC-8 preset (R9; DESIGN CHOICE, log entry 3). -/
def State.reset : State :=
  State.resetOf .crc8

/-- The reasons the machine stops with a fault. -/
inductive Fault where
  /-- Raised by FAST_BYTE and TBL_RD when the entry they read has no value although `STATUS.TV = 1`.  No state
  reachable from reset does this (10_state.md R35 (c)).  Safe: the model stops (log entry 6). -/
  | tableEntryUnwritten (index : Byte)
  deriving DecidableEq, Repr

/-- The reasons the machine refuses a step. -/
inductive Refusal where
  /-- An instruction with no meaning yet, raised in `exec`'s arm only; no arm does.  Safe. -/
  | notModelled (mnemonic : String)
  /-- Raised by `step` on an instance whose `P` is not legal: "the behaviour of an instance whose `P` is not
  legal is outside this spec (a model refuses it)" (00_scope.md R8; log entry 4).  Safe. -/
  | illegalParameters
  deriving DecidableEq, Repr

end Sys2Proof.Machine
end

