-- ==== Sys2Proof/Machine/Flags.lean ====
section
/-! DEFINITION. The status register as a byte, its updates (10_state.md R25 to R28), and the fault and response codes (30_encoding.md R72, 60_exceptions.md R170). -/

namespace Sys2Proof.Machine

/-- `STATUS` as the 8-bit register: `ECODE` in 7:4, 0 in 3:2, `ERR` in 1, `TV` in 0 (R25). -/
def statusByte (st : Status) : Byte :=
  st.ecode ++ (0#2) ++ BitVec.ofBool st.err ++ BitVec.ofBool st.tv

/-- `STATUS.TV <- 1` (R26). -/
def markTableValid (st : Status) : Status :=
  { st with tv := true }

/-- The code of a fault, as `STATUS.ECODE` holds it (R28, 60_exceptions.md R170). -/
def ecodeOf : FaultCode → BitVec 4
  | .illegalCommand => 1
  | .tableNotBuilt => 2
  | .reflectRange => 3

/-- `STATUS.ERR <- 1; STATUS.ECODE <- code` (60_exceptions.md R172). -/
def latchFault (f : FaultCode) (st : Status) : Status :=
  { st with err := true, ecode := ecodeOf f }

/-- `RC` of a command that executed (R72). -/
def rcOk : Byte := 0x00

/-- `RC` of a command that arrived while the block was halted (R72). -/
def rcHalted : Byte := 0x04

/-- `RC` of a command that raised a fault: equal to the `ECODE` the fault latches (R72). -/
def rcFault (f : FaultCode) : Byte :=
  (ecodeOf f).setWidth 8

end Sys2Proof.Machine
end

