-- ==== Sys2Proof/Machine/Operands.lean ====
section
/-! DEFINITION. The constants of `P` as W-bit values, `REM` as a W-bit value, and the placing of results in `RDATA` (00_scope.md R11, R15; 30_encoding.md R73). -/

namespace Sys2Proof.Machine

/-- `POLY` as a W-bit value (R7). -/
def poly (P : Params) : BitVec P.W :=
  P.POLY.setWidth P.W

/-- `INIT` as a W-bit value (R7). -/
def initial (P : Params) : BitVec P.W :=
  P.INIT.setWidth P.W

/-- `XOROUT` as a W-bit value (R7). -/
def xorout (P : Params) : BitVec P.W :=
  P.XOROUT.setWidth P.W

/-- `SH = W - 8` (R11). -/
def shiftOf (w : Nat) : Nat :=
  w - 8

/-- `b << SH`: a byte in the top byte of a W-bit value (R11, R103, R120; 90_conflicts.md C3). -/
def placeByte (w : Nat) (b : Byte) : BitVec w :=
  b.setWidth w <<< shiftOf w

/-- `r >> SH` as an 8-bit value: the top byte of a W-bit value (R135). -/
def topByte {w : Nat} (r : BitVec w) : Byte :=
  (r >>> shiftOf w).setWidth 8

/-- `zext_64`: a value of `w ≤ 64` bits seen as a 64-bit value (R15). -/
def zext64 {w : Nat} (v : BitVec w) : Word :=
  v.setWidth 64

/-- A boolean in `RDATA[0]`, the other bits 0 (R73). -/
def boolWord (b : Bool) : Word :=
  zext64 (BitVec.ofBool b)

/-- `REM` as a W-bit value (R23). -/
def remOf (s : State) : BitVec s.params.W :=
  s.rem.setWidth s.params.W

/-- `REM <- r` (R23): every write has W bits. -/
def setRem (s : State) (r : BitVec s.params.W) : State :=
  { s with rem := zext64 r }

end Sys2Proof.Machine
end

