-- ==== Sys2Proof/WellFormed.lean ====
section
/-! DEFINITION. The legality check of a parameter set (00_scope.md R8).  An `Instr` needs no check of its own: the widths of
its fields are in their types and every value of every field is legal at decode (30_encoding.md R71, R73), so every `Instr` is well formed. -/

namespace Sys2Proof

/-- `W ∈ {8, 16, 32}`: the admitted widths (R8; 90_conflicts.md C1). -/
def Params.widthAdmitted (P : Params) : Bool :=
  P.W == 8 || P.W == 16 || P.W == 32

/-- A constant of `P` lies in `0 .. 2^W - 1` (R8). -/
def Params.fits (P : Params) (v : Word) : Bool :=
  decide (v.toNat < 2 ^ P.W)

/-- `legal(P)` (R8): an admitted width, `POLY`, `INIT` and `XOROUT` within it, and `POLY[0] = 1`. -/
def Params.legal (P : Params) : Bool :=
  P.widthAdmitted && P.fits P.POLY && P.fits P.INIT && P.fits P.XOROUT && P.POLY.getLsbD 0

end Sys2Proof
end

