-- ==== Sys2Proof/Machine/Ops.lean ====
section
/-! DEFINITION. The shared operations: the table memory (20_memory.md R50), the response (30_encoding.md R72), raising a fault and
the checks before a command (60_exceptions.md R172, R173, R177), the reset event (70_reset_and_hazards.md R190), taking the next event. -/

namespace Sys2Proof.Machine

/-- The value of the cell with index `k`, if one is listed. -/
def lookupCell (k : Nat) : Memory → Option Word
  | [] => none
  | (j, v) :: m => if j = k then some v else lookupCell k m

/-- The memory with the cell `(k, v)` put in its place in the rising order, replacing an older one. -/
def insertCell (k : Nat) (v : Word) : Memory → Memory
  | [] => [(k, v)]
  | (j, u) :: m =>
    if k < j then (k, v) :: (j, u) :: m
    else if k = j then (k, v) :: m
    else (j, u) :: insertCell k v m

/-- `TblRead(i)` (R50): the entry at `i`, or none where nothing has been written (log entry 6). -/
def tblRead (m : Memory) (i : Byte) : Option Word :=
  lookupCell i.toNat m

/-- `TblWrite(i, v)` (R50): sets entry `i` and changes no other. -/
def tblWrite (m : Memory) (i : Byte) (v : Word) : Memory :=
  insertCell i.toNat v m

/-- The canonical form's order: indices strictly rising, from `low` on, all below 256 (R52). -/
def risingFrom (low : Nat) : Memory → Bool
  | [] => true
  | (j, _) :: m => decide (low ≤ j) && decide (j < tableSize) && risingFrom (j + 1) m

/-- The canonical form of the table memory: indices strictly rising, all in `0 .. 255`. -/
def Memory.wf (m : Memory) : Bool :=
  risingFrom 0 m

/-- Every listed entry is a W-bit value (R24, R35 (b)). -/
def entriesFit (P : Params) (m : Memory) : Bool :=
  m.all fun cell => P.fits cell.2

/-- `respond(rc, data)` (00_scope.md R16, 30_encoding.md R72): exactly one response, and nothing else. -/
def respond (rc : Byte) (data : Word) (s : State) : State :=
  { s with responses := ⟨rc, data⟩ :: s.responses }

/-- `respond(0x00, data)` (R72). -/
def ok (data : Word) (s : State) : State :=
  respond rcOk data s

/-- `raise F` (60_exceptions.md R172): latch the fault, respond with its code, change nothing else. -/
def raise (f : FaultCode) (s : State) : State :=
  respond (rcFault f) 0 { s with status := latchFault f s.status }

/-- The halted check that opens every command but RD_STATUS (60_exceptions.md R173, R177 (2)). -/
def unlessHalted (s : State) (k : Host.Outcome State Fault Refusal) : Host.Outcome State Fault Refusal :=
  if s.status.err then .next (respond rcHalted 0 s) else k

/-- The precondition of FAST_BYTE and TBL_RD: `TableNotBuilt` while `TV = 0` (42_table_rom.md R126). -/
def requireTable (s : State) (k : Host.Outcome State Fault Refusal) : Host.Outcome State Fault Refusal :=
  if s.status.tv then k else .next (raise .tableNotBuilt s)

/-- The precondition of REFLECT: `ReflectRange` for a count above the storage width (40_reflect.md R92). -/
def requireCount (n : Byte) (s : State) (k : Host.Outcome State Fault Refusal) :
    Host.Outcome State Fault Refusal :=
  if reflectStorageWidth < n.toNat then .next (raise .reflectRange s) else k

/-- A table read inside a command: goes on with the entry as a W-bit value; an entry nothing has written stops
the machine (log entry 6). -/
def withEntry (s : State) (i : Byte) (k : BitVec s.params.W → Host.Outcome State Fault Refusal) :
    Host.Outcome State Fault Refusal :=
  match tblRead s.table i with
  | some e => k (e.setWidth s.params.W)
  | none => .fault (.tableEntryUnwritten i)

/-- Executing an illegal word (60_exceptions.md R174, R177 (2) and (3)): halted is answered first. -/
def rejectIllegal (s : State) : Host.Outcome State Fault Refusal :=
  unlessHalted s (.next (raise .illegalCommand s))

/-- The reset event (70_reset_and_hazards.md R190): the block's state becomes the reset state; `P` is unchanged
and there is no response.  What the host still has to issue and what it has been answered stay (log entry 2). -/
def applyReset (s : State) : State :=
  { State.resetOf s.params with events := s.events, responses := s.responses }

/-- The host's next event, and the state once it is taken from the queue (log entry 1). -/
def takeEvent (s : State) : Option (Event × State) :=
  match s.events with
  | [] => none
  | e :: rest => some (e, { s with events := rest })

/-- The host puts a command before its other pending events. -/
def issueFirst (c : Command) (s : State) : State :=
  { s with events := .command c :: s.events }

/-- An instance whose `P` is not legal is refused (00_scope.md R8; log entry 4). -/
def requireLegal (s : State) (k : Host.Outcome State Fault Refusal) : Host.Outcome State Fault Refusal :=
  if s.params.legal then k else .refused .illegalParameters

end Sys2Proof.Machine
end

