-- ==== Sys2Proof/Machine/Reflect.lean ====
section
/-! DEFINITION. The bit-reflection unit: `reflect` (40_reflect.md R90) and REFLECT (R92). -/

namespace Sys2Proof.Machine

/-- `reflect(v, n)` for a value held in a storage of `w ≥ n` bits (R90): its low `n` bits reversed in order, the
bits above ignored, and zeros above position `n - 1` in the result. -/
def reflect {w : Nat} (v : BitVec w) (n : Nat) : BitVec w :=
  ((v.setWidth n).reverse).setWidth w

/-- REFLECT (R92). -/
def execReflect (n : Byte) (v : Word) (s : State) : Host.Outcome State Fault Refusal :=
  unlessHalted s <| requireCount n s <|
    .next (ok (reflect v n.toNat) s)

end Sys2Proof.Machine
end

