-- ==== Sys2Proof/Machine/Divider.lean ====
section
/-! DEFINITION. The bit-serial polynomial divider, the reference path (41_bitserial_divider.md R100 to R105), and CRC_INIT, REF_BYTE, CRC_FINAL (R106 to R108). -/

namespace Sys2Proof.Machine

/-- `round(r)` (R100): the top bit is tested before the shift, the shift drops it, `POLY` is XORed after. -/
def divRound {w : Nat} (poly r : BitVec w) : BitVec w :=
  if r.msb then (r <<< 1) ^^^ poly else r <<< 1

/-- `div8(r)` (R101): eight rounds, strictly in sequence. -/
def div8 {w : Nat} (poly r : BitVec w) : BitVec w :=
  divRound poly (divRound poly (divRound poly (divRound poly
    (divRound poly (divRound poly (divRound poly (divRound poly r)))))))

/-- `refin(b)` (R102). -/
def refin (P : Params) (b : Byte) : Byte :=
  if P.REFIN then reflect b 8 else b

/-- `ref_step(r, b) = div8(r xor (refin(b) << SH))` (R103). -/
def refStep (P : Params) (r : BitVec P.W) (b : Byte) : BitVec P.W :=
  div8 (poly P) (r ^^^ placeByte P.W (refin P b))

/-- `finalize(r)` (R104): reflection first, XOR second. -/
def finalize (P : Params) (r : BitVec P.W) : BitVec P.W :=
  (if P.REFOUT then reflect r P.W else r) ^^^ xorout P

/-- `r_k` of R105: the remainder after the bytes of `m`, from the remainder `r`. -/
def refBytes (P : Params) (r : BitVec P.W) (m : List Byte) : BitVec P.W :=
  m.foldl (refStep P) r

/-- `crc_ref(m)` (R105). -/
def crcRef (P : Params) (m : List Byte) : BitVec P.W :=
  finalize P (refBytes P (initial P) m)

/-- CRC_INIT (R106). -/
def execCrcInit (s : State) : Host.Outcome State Fault Refusal :=
  unlessHalted s <|
    .next (ok 0 (setRem s (initial s.params)))

/-- REF_BYTE (R107). -/
def execRefByte (b : Byte) (s : State) : Host.Outcome State Fault Refusal :=
  unlessHalted s <|
    .next (ok 0 (setRem s (refStep s.params (remOf s) b)))

/-- CRC_FINAL (R108): `REM` is left unchanged. -/
def execCrcFinal (s : State) : Host.Outcome State Fault Refusal :=
  unlessHalted s <|
    .next (ok (zext64 (finalize s.params (remOf s))) s)

end Sys2Proof.Machine
end

