-- ==== Sys2Proof/Machine/CheckStatus.lean ====
section
/-! DEFINITION. The checksum comparator CRC_CHECK (45_check_status.md R158) and the status read RD_STATUS (R160). -/

namespace Sys2Proof.Machine

/-- CRC_CHECK (R158): all 64 bits are compared; a mismatch is a result, not a fault. -/
def execCrcCheck (e : Word) (s : State) : Host.Outcome State Fault Refusal :=
  unlessHalted s <|
    .next (ok (boolWord (zext64 (finalize s.params (remOf s)) == e)) s)

/-- RD_STATUS (R160): executed normally in the halted state too. -/
def execRdStatus (s : State) : Host.Outcome State Fault Refusal :=
  .next (ok (zext64 (statusByte s.status)) s)

end Sys2Proof.Machine
end

