-- ==== Sys2Proof/Machine/Parity.lean ====
section
/-! DEFINITION. The parity checker: `odd_parity` by its fold (44_parity.md R150, R151) and PARITY (R152). -/

namespace Sys2Proof.Machine

/-- `odd_parity(b)` by the fold of R151, the spec's reading of the document's prose (log entry 11): XOR-and-shift
by 4, 2 and 1, then bit 0. -/
def oddParity (b : Byte) : Bool :=
  let x1 := b ^^^ (b >>> 4)
  let x2 := x1 ^^^ (x1 >>> 2)
  let x3 := x2 ^^^ (x2 >>> 1)
  x3.getLsbD 0

/-- PARITY (R152). -/
def execParity (b : Byte) (s : State) : Host.Outcome State Fault Refusal :=
  unlessHalted s <|
    .next (ok (boolWord (oddParity b)) s)

end Sys2Proof.Machine
end

