-- ==== Sys2Proof/Machine/TableEngine.lean ====
section
/-! DEFINITION. The table-driven remainder engine, the fast path: `fast_step`, `crc_fast` (43_table_engine.md R135, R138) and FAST_BYTE (R136). -/

namespace Sys2Proof.Machine

/-- `idx = refin(b) xor (r >> SH)`, an 8-bit value (R135). -/
def tableIndex (P : Params) (r : BitVec P.W) (b : Byte) : Byte :=
  refin P b ^^^ topByte r

/-- The new remainder from the entry read: `entry xor trunc_W(r << 8)` (R135). -/
def fastRem {w : Nat} (entry r : BitVec w) : BitVec w :=
  entry ^^^ (r <<< 8)

/-- `fast_step(T, r, b)` for a table `T` (R135). -/
def fastStep (P : Params) (T : Byte → BitVec P.W) (r : BitVec P.W) (b : Byte) : BitVec P.W :=
  fastRem (T (tableIndex P r b)) r

/-- `s_k` of R138: the remainder after the bytes of `m`, from the remainder `r`. -/
def fastBytes (P : Params) (T : Byte → BitVec P.W) (r : BitVec P.W) (m : List Byte) : BitVec P.W :=
  m.foldl (fastStep P T) r

/-- `crc_fast(T, m)` (R138). -/
def crcFast (P : Params) (T : Byte → BitVec P.W) (m : List Byte) : BitVec P.W :=
  finalize P (fastBytes P T (initial P) m)

/-- FAST_BYTE (R136): one table read; a fault leaves `REM` unchanged and reads no entry. -/
def execFastByte (b : Byte) (s : State) : Host.Outcome State Fault Refusal :=
  unlessHalted s <| requireTable s <| withEntry s (tableIndex s.params (remOf s) b) fun e =>
    .next (ok 0 (setRem s (fastRem e (remOf s))))

end Sys2Proof.Machine
end

