-- ==== Sys2Proof/Machine/TableRom.lean ====
section
/-! DEFINITION. The lookup table's content `tbl` (42_table_rom.md R120), its builder BUILD_TABLE (R122) and its read port TBL_RD (R124). -/

namespace Sys2Proof.Machine

/-- `tbl(d) = div8(d << SH)` (R120): no input reflection, starting remainder 0. -/
def tbl (P : Params) (d : Byte) : BitVec P.W :=
  div8 (poly P) (placeByte P.W d)

/-- `TblWrite(d, tbl(d))` for one `d` of the builder's loop (R122). -/
def buildEntry (P : Params) (m : Memory) (d : Nat) : Memory :=
  tblWrite m (BitVec.ofNat 8 d) (zext64 (tbl P (BitVec.ofNat 8 d)))

/-- The first `n` passes of the builder's loop, `d` rising from 0 (R122). -/
def buildFirst (P : Params) (m : Memory) (n : Nat) : Memory :=
  (List.range n).foldl (buildEntry P) m

/-- The builder's whole loop: "for each candidate byte value `d` from 0 to 255" (R122).  It is kept folded, so that
comparing two states does not run it. -/
@[irreducible] def buildAll (P : Params) (m : Memory) : Memory :=
  buildFirst P m tableSize

/-- BUILD_TABLE (R122): all 256 entries, then `TV <- 1`. -/
def execBuildTable (s : State) : Host.Outcome State Fault Refusal :=
  unlessHalted s <|
    .next (ok 0 { s with
      table := buildAll s.params s.table
      status := markTableValid s.status })

/-- TBL_RD (R124). -/
def execTblRd (i : Byte) (s : State) : Host.Outcome State Fault Refusal :=
  unlessHalted s <| requireTable s <| withEntry s i fun e =>
    .next (ok (zext64 e) s)

end Sys2Proof.Machine
end

