-- ==== Sys2Proof/Machine/Dispatch.lean ====
section
/-! DEFINITION. The meaning of each command: one arm per constructor of Instr. -/

namespace Sys2Proof.Machine

def exec (i : Instr) (s : State) : Host.Outcome State Fault Refusal :=
  match i with
  | .reflect n v => Sys2Proof.Machine.execReflect n v s
  | .parity b => Sys2Proof.Machine.execParity b s
  | .crcInit => Sys2Proof.Machine.execCrcInit s
  | .refByte b => Sys2Proof.Machine.execRefByte b s
  | .fastByte b => Sys2Proof.Machine.execFastByte b s
  | .crcFinal => Sys2Proof.Machine.execCrcFinal s
  | .crcCheck e => Sys2Proof.Machine.execCrcCheck e s
  | .buildTable => Sys2Proof.Machine.execBuildTable s
  | .tblRd idx => Sys2Proof.Machine.execTblRd idx s
  | .rdStatus => Sys2Proof.Machine.execRdStatus s

end Sys2Proof.Machine
end

