-- ==== Sys2Proof/Machine/Step.lean ====
section
/-! DEFINITION. One step of the machine: the host's next event (00_scope.md R18, 60_exceptions.md R177, 70_reset_and_hazards.md R190). -/

namespace Sys2Proof.Machine

/-- One step.  It takes the host's next event: a reset, or a command, which is decoded and executed or rejected as
illegal.  With no event pending nothing happens (R18; log entry 1).  The order of R177 is kept: RD_STATUS is the one
meaning without the halted check, and the halted check comes before the illegal word and the preconditions. -/
def step (s : State) : Host.Outcome State Fault Refusal :=
  requireLegal s <|
    match takeEvent s with
    | none => .next s
    | some (.reset, s') => .next (applyReset s')
    | some (.command c, s') =>
      match decode c.cw c.opd with
      | .ok i => exec i s'
      | .error _ => rejectIllegal s'

/-- The state in which the host issues an opcode-table word as its very next command (the host's fixed name; log
entry 10). -/
def State.withFetchWord (s : State) (nbits w : Nat) : State :=
  issueFirst (tableCommand nbits w) s

end Sys2Proof.Machine
end

