-- ==== Sys2Proof/Machine/Assembler.lean ====
section
/-! DEFINITION. The assembler syntax of 30_encoding.md R79 and R80: from a line of text to a command. -/

namespace Sys2Proof.Machine

/-- An assembler number as a field of `n` bits; a number that does not fit has no encoding. -/
def asField (n v : Nat) : Option (BitVec n) :=
  if v < 2 ^ n then some (BitVec.ofNat n v) else none

/-- The command of a mnemonic and its operands (R79); an unspecified `OPD` is driven as 0 (R80). -/
def assemble (mnemonic : String) (args : List Nat) : Option Command :=
  match args with
  | [] =>
    if mnemonic = "CRC_INIT" then some (encode .crcInit)
    else if mnemonic = "CRC_FINAL" then some (encode .crcFinal)
    else if mnemonic = "BUILD_TABLE" then some (encode .buildTable)
    else if mnemonic = "RD_STATUS" then some (encode .rdStatus)
    else none
  | [a] =>
    if mnemonic = "PARITY" then (asField 8 a).map fun b => encode (.parity b)
    else if mnemonic = "REF_BYTE" then (asField 8 a).map fun b => encode (.refByte b)
    else if mnemonic = "FAST_BYTE" then (asField 8 a).map fun b => encode (.fastByte b)
    else if mnemonic = "TBL_RD" then (asField 8 a).map fun i => encode (.tblRd i)
    else if mnemonic = "CRC_CHECK" then (asField 64 a).map fun e => encode (.crcCheck e)
    else none
  | [a, v] =>
    if mnemonic = "REFLECT" then
      (asField 8 a).bind fun n => (asField 64 v).map fun w => encode (.reflect n w)
    else none
  | _ => none

/-- The mnemonic of an instruction (R74). -/
def mnemonicOf : Instr → String
  | .reflect _ _ => "REFLECT"
  | .parity _ => "PARITY"
  | .crcInit => "CRC_INIT"
  | .refByte _ => "REF_BYTE"
  | .fastByte _ => "FAST_BYTE"
  | .crcFinal => "CRC_FINAL"
  | .crcCheck _ => "CRC_CHECK"
  | .buildTable => "BUILD_TABLE"
  | .tblRd _ => "TBL_RD"
  | .rdStatus => "RD_STATUS"

/-- The operands of an instruction as its assembler line writes them (R79). -/
def operandsOf : Instr → List Nat
  | .reflect n v => [n.toNat, v.toNat]
  | .parity b => [b.toNat]
  | .crcInit => []
  | .refByte b => [b.toNat]
  | .fastByte b => [b.toNat]
  | .crcFinal => []
  | .crcCheck e => [e.toNat]
  | .buildTable => []
  | .tblRd i => [i.toNat]
  | .rdStatus => []

/-- White space inside a line. -/
def isBlank (c : Char) : Bool :=
  c == ' ' || c == '\t' || c == '\r'

/-- The text without blanks at either end. -/
def trimBlanks (t : List Char) : List Char :=
  ((t.dropWhile isBlank).reverse.dropWhile isBlank).reverse

/-- The pieces of a text between separators. -/
def piecesAt (sep : Char) (t : List Char) : List (List Char) :=
  t.foldr (fun c pieces =>
    if c == sep then [] :: pieces
    else match pieces with
      | [] => [[c]]
      | p :: ps => (c :: p) :: ps) [[]]

/-- The value of a digit in a base, if it is one. -/
def digitValue (base : Nat) (c : Char) : Option Nat :=
  let d :=
    if '0' ≤ c ∧ c ≤ '9' then c.toNat - '0'.toNat
    else if 'a' ≤ c ∧ c ≤ 'f' then c.toNat - 'a'.toNat + 10
    else if 'A' ≤ c ∧ c ≤ 'F' then c.toNat - 'A'.toNat + 10
    else base
  if d < base then some d else none

/-- A nonempty string of digits in a base. -/
def digitsValue (base : Nat) (t : List Char) : Option Nat :=
  match t with
  | [] => none
  | _ => t.foldl (fun acc c => acc.bind fun n => (digitValue base c).map fun d => n * base + d) (some 0)

/-- A number in C style: hexadecimal after `0x`, else decimal (R79). -/
def numberValue (t : List Char) : Option Nat :=
  match t with
  | '0' :: 'x' :: ds => digitsValue 16 ds
  | _ => digitsValue 10 t

/-- The comma-separated numbers of a line's operand part; none of them where it is blank. -/
def operandValues (t : List Char) : Option (List Nat) :=
  match t with
  | [] => some []
  | _ => (piecesAt ',' t).mapM fun p => numberValue (trimBlanks p)

/-- One line (R79): nothing for a line that is blank once its comment is cut, else one command; `none` where it is
not of the syntax (log entry 15).  R79 writes a response to the right of `->` and does not say whether an assembler
skips it: DESIGN CHOICE (log entry 15), only the `;` comment is cut, so a line that carries `->` and its response is
no line of the syntax. -/
def assembleLine (line : List Char) : Option (List Command) :=
  match trimBlanks (line.takeWhile (· != ';')) with
  | [] => some []
  | t =>
    let word := t.takeWhile fun c => !isBlank c
    let rest := trimBlanks (t.dropWhile fun c => !isBlank c)
    (operandValues rest).bind fun args => (assemble (String.ofList word) args).map fun c => [c]

/-- A program text, one command a line (R79). -/
def assembleText (text : List Char) : Option (List Command) :=
  ((piecesAt '\n' text).mapM assembleLine).map List.flatten

end Sys2Proof.Machine
end

