-- ==== Sys2Proof/Machine/Pseudo.lean ====
section
/-! DEFINITION. The document's operations as pseudo-instructions: fixed command sequences the host issues (30_encoding.md R81 to R88). -/

namespace Sys2Proof.Machine

/-- The host issues these commands, in this order, before its other pending events (R81). -/
def issue (is : List Instr) (s : State) : State :=
  { s with events := is.map (fun i => .command (encode i)) ++ s.events }

/-- `computeReference(m)` (R83). -/
def computeReference (m : List Byte) : List Instr :=
  .crcInit :: (m.map .refByte ++ [.crcFinal])

/-- `buildTable()` (R84). -/
def buildTable : List Instr :=
  [.buildTable]

/-- `computeFast(m)` (R85). -/
def computeFast (m : List Byte) : List Instr :=
  .crcInit :: (m.map .fastByte ++ [.crcFinal])

/-- `reflect(v, n)` (R86). -/
def reflectCall (v : Word) (n : Byte) : List Instr :=
  [.reflect n v]

/-- `getOddParity(b)` (R87). -/
def getOddParity (b : Byte) : List Instr :=
  [.parity b]

/-- `validate(m, e)` on the fast path, the path the document says a collaborator uses (R88). -/
def validate (m : List Byte) (e : Word) : List Instr :=
  .crcInit :: (m.map .fastByte ++ [.crcCheck e])

/-- `validate(m, e)` on the reference path (R88). -/
def validateReference (m : List Byte) (e : Word) : List Instr :=
  .crcInit :: (m.map .refByte ++ [.crcCheck e])

/-- The byte command of either path: FAST_BYTE where `fast`, else REF_BYTE (43_table_engine.md R143). -/
def byteCommand (fast : Bool) (b : Byte) : Instr :=
  if fast then .fastByte b else .refByte b

/-- A message fed with any mixture of the two byte commands (R143). -/
def mixedBytes (m : List (Bool × Byte)) : List Instr :=
  m.map fun p => byteCommand p.1 p.2

end Sys2Proof.Machine
end

