-- ==== Sys2Proof/Safety.lean ====
section
/-! DEFINITION. What holds in every reachable state (10_state.md R35), and the words the statements use: a command's own
precondition (60_exceptions.md R177 (4)) and what an instruction may write (10_state.md R34). -/

namespace Sys2Proof.Machine

/-- `STATUS.TV = 1` implies `TABLE[d] = tbl(d)` for all `d` (10_state.md R24, R35 (c)). -/
def TableMatches (s : State) : Prop :=
  s.status.tv = true → ∀ d : Byte, tblRead s.table d = some (zext64 (tbl s.params d))

/-- The invariants of 10_state.md R35 over the model's state, and the form of its table memory. -/
structure Inv (s : State) : Prop where
  /-- The instance's parameter set is legal (00_scope.md R8). -/
  legal : s.params.legal = true
  /-- (a) `0 ≤ REM ≤ MASK` -/
  remFits : s.params.fits s.rem = true
  /-- the table memory has its canonical form -/
  tableWf : s.table.wf = true
  /-- (b) every written entry is `≤ MASK` -/
  tableFits : entriesFit s.params s.table = true
  /-- (c) a valid table holds `tbl` -/
  tableMatches : TableMatches s
  /-- (d) `ERR = 0` if and only if `ECODE = 0` -/
  errCode : s.status.err = false ↔ s.status.ecode = 0
  /-- (e) `ECODE ≤ 3` -/
  codeLegal : s.status.ecode.toNat ≤ 3
  /-- halted by TableNotBuilt: `TV` is necessarily 0 (45_check_status.md R160) -/
  notBuilt : s.status.ecode = 2 → s.status.tv = false

/-- `k` steps, stopping at the first fault or refusal.  It is the host's `Host.Core.run core` over the model's own
state type (`run_core_eq_steps` in Laws/Run.lean). -/
def steps : Nat → State → Host.Outcome State Fault Refusal
  | 0, s => .next s
  | k + 1, s =>
    match step s with
    | .next t => steps k t
    | .fault r => .fault r
    | .refused r => .refused r

/-- The fault of a command's own precondition, if it is violated (60_exceptions.md R177 (4)). -/
def ownFault (s : State) : Instr → Option FaultCode
  | .reflect n _ => if 64 < n.toNat then some .reflectRange else none
  | .fastByte _ => if s.status.tv then none else some .tableNotBuilt
  | .tblRd _ => if s.status.tv then none else some .tableNotBuilt
  | .parity _ => none
  | .crcInit => none
  | .refByte _ => none
  | .crcFinal => none
  | .crcCheck _ => none
  | .buildTable => none
  | .rdStatus => none

/-- Whether a command may write `REM` (10_state.md R23, R34). -/
def writesRem : Instr → Bool
  | .crcInit => true
  | .refByte _ => true
  | .fastByte _ => true
  | .reflect _ _ => false
  | .parity _ => false
  | .crcFinal => false
  | .crcCheck _ => false
  | .buildTable => false
  | .tblRd _ => false
  | .rdStatus => false

/-- Whether a command may write `TABLE` and `STATUS.TV` (10_state.md R34). -/
def writesTable : Instr → Bool
  | .buildTable => true
  | .crcInit => false
  | .refByte _ => false
  | .fastByte _ => false
  | .reflect _ _ => false
  | .parity _ => false
  | .crcFinal => false
  | .crcCheck _ => false
  | .tblRd _ => false
  | .rdStatus => false

/-- Whether a command may write `STATUS.ERR` and `STATUS.ECODE`: only by raising a fault (10_state.md R34). -/
def mayFault : Instr → Bool
  | .reflect _ _ => true
  | .fastByte _ => true
  | .tblRd _ => true
  | .parity _ => false
  | .crcInit => false
  | .refByte _ => false
  | .crcFinal => false
  | .crcCheck _ => false
  | .buildTable => false
  | .rdStatus => false

end Sys2Proof.Machine
end

