-- ==== Sys2Proof/Certificates/Slice0/Obligations.lean ====
section
/-! DEFINITION. The statements for the provers, each with the rule of spec/ it comes from. -/

section

open Sys2Proof Sys2Proof.Machine

/-! ## Encoding -/

/-- Words written out from the opcode map (30_encoding.md R74), at least one per command, and words of R76. -/
def Obligations.DecodeReadsSpecWords : Prop :=
  decode 0b0000000100001000 0x31 = .ok (.reflect 8 0x31) ∧
  decode 0b0000001000000111 0 = .ok (.parity 0x07) ∧
  decode 0b0001000000000000 0 = .ok .crcInit ∧
  decode 0b0001000110111110 0 = .ok (.refByte 0xBE) ∧
  decode 0b0001001010111110 0 = .ok (.fastByte 0xBE) ∧
  decode 0b0001001100000000 0 = .ok .crcFinal ∧
  decode 0b0001010000000000 0x192 = .ok (.crcCheck 0x192) ∧
  decode 0b0010000000000000 0 = .ok .buildTable ∧
  decode 0b0010000111100011 0 = .ok (.tblRd 0xE3) ∧
  decode 0b0011000000000000 0 = .ok .rdStatus ∧
  decode 0x0000 0 = .error (.unassignedOpcode 0x00) ∧
  decode 0xFFFF 0 = .error (.unassignedOpcode 0xFF) ∧
  decode 0x1001 0 = .error (.nonzeroImm8 0x10 0x01) ∧
  decode 0x20FF 0 = .error (.nonzeroImm8 0x20 0xFF)

/-- Every instruction, with every operand at every value, is read back from its encoding (R74, R75, R80). -/
def Obligations.DecodeAfterEncode : Prop :=
  ∀ i : Instr, decode (encode i).cw (encode i).opd = .ok i

/-- A word that decodes is the encoding of what it decodes to, with the operand bus kept by the formats that use
it and driven as 0 by the others (R70, R71, R80). -/
def Obligations.EncodeAfterDecode : Prop :=
  ∀ (cw : CmdWord) (opd : Word) (i : Instr), decode cw opd = .ok i →
    (encode i).cw = cw ∧ (encode i).opd = if usesOpd (formatOf i) then opd else 0

/-- R75: the command of the one matching row with its `imm8` field, or none; `OPD` plays no part; 1285 of
the words are legal, so the other 64251 are not. -/
def Obligations.DecodeIsTotalAndCounted : Prop :=
  (∀ (cw : CmdWord) (opd : Word),
    (∃ i row, row ∈ opcodeRows ∧ selects cw row = true ∧ (∀ r ∈ opcodeRows, selects cw r = true → r = row) ∧
      decode cw opd = .ok i ∧ rowOf i = row ∧ (encode i).cw = cw) ∨
    ((∀ r ∈ opcodeRows, selects cw r = false) ∧ ∃ e, decode cw opd = .error e)) ∧
  (∀ (cw : CmdWord) (opd opd' : Word), (∃ i, decode cw opd = .ok i) ↔ ∃ i, decode cw opd' = .ok i) ∧
  ((List.range 256).map fun op => (List.range 256).countP fun imm =>
    (decodeTableWord 16 (256 * op + imm)).isSome).sum = 1285

/-- R76 (a) and (b): which words are illegal. -/
def Obligations.IllegalWordsAreThese : Prop :=
  ∀ (cw : CmdWord) (opd : Word),
    (∃ e, decode cw opd = .error e) ↔
      (opcodeOf cw ∉ [0x01, 0x02, 0x10, 0x11, 0x12, 0x13, 0x14, 0x20, 0x21, 0x30] ∨
        (opcodeOf cw ∈ [0x10, 0x13, 0x14, 0x20, 0x30] ∧ imm8Of cw ≠ 0x00))

/-- The assembler gives an instruction's mnemonic and operands the instruction's encoding (R79, R80). -/
def Obligations.AssemblerAgreesWithEncoder : Prop :=
  ∀ i : Instr, assemble (mnemonicOf i) (operandsOf i) = some (encode i)

/-! ## The step -/

/-- A command that decodes is taken from the queue and executed (R18, R177). -/
def Obligations.StepRunsDecoded : Prop :=
  ∀ (s : State) (c : Command) (rest : List Event) (i : Instr),
    s.params.legal = true → s.events = .command c :: rest → decode c.cw c.opd = .ok i →
      step s = exec i { s with events := rest }

/-- With no event pending nothing happens (R18; the model's own reading, log entry 1). -/
def Obligations.IdleStepChangesNothing : Prop :=
  ∀ s : State, s.params.legal = true → s.events = [] → step s = .next s

/-- An instance whose parameter set is not legal is refused (R8). -/
def Obligations.IllegalInstanceRefused : Prop :=
  ∀ s : State, s.params.legal = false → step s = .refused .illegalParameters

/-- The reset event (R190) and the state the machine starts from hold the values of R33, and a reset gives no
response (R190).  The model's own readings and choices in it: that an unspecified table entry has no value
(`tblRead = none`) is DEDUCED, log entry 6; that the pending events and the list of responses are kept is a DESIGN
CHOICE, log entry 2; that `State.reset` is the CRC-8 instance is a DESIGN CHOICE, log entry 3. -/
def Obligations.ResetGivesResetState : Prop :=
  (∀ (s : State) (rest : List Event), s.params.legal = true → s.events = .reset :: rest →
    ∃ t, step s = .next t ∧ t.rem = s.params.INIT ∧ t.status.tv = false ∧ t.status.err = false ∧
      t.status.ecode = 0 ∧ statusByte t.status = 0x00 ∧ (∀ d, tblRead t.table d = none) ∧
      t.params = s.params ∧ t.events = rest ∧ t.responses = s.responses) ∧
  (State.reset.rem = State.reset.params.INIT ∧ statusByte State.reset.status = 0x00 ∧
    ∀ d, tblRead State.reset.table d = none)

/-- R173: the halted state, and that only a reset leaves it. -/
def Obligations.HaltedBlockAnswersHalted : Prop :=
  (∀ (s : State) (c : Command) (rest : List Event),
    s.params.legal = true → s.status.err = true → s.events = .command c :: rest →
      (c.cw ≠ 0x3000 → step s =
        .next { s with events := rest, responses := ⟨0x04, 0⟩ :: s.responses }) ∧
      (c.cw = 0x3000 → step s =
        .next { s with events := rest, responses := ⟨0x00, zext64 (statusByte s.status)⟩ :: s.responses })) ∧
  (∀ s t : State, s.status.err = true → step s = .next t → t.status.err = false →
    ∃ rest, s.events = .reset :: rest) ∧
  (∀ (s : State) (rest : List Event), s.params.legal = true → s.events = .reset :: rest →
    ∃ t, step s = .next t ∧ t.status.err = false)

/-- R177: the order of the checks of one command, first match wins. -/
def Obligations.ChecksInOrder : Prop :=
  ∀ (s : State) (c : Command) (rest : List Event),
    s.params.legal = true → s.events = .command c :: rest →
      (c.cw = 0x3000 → step s =
        .next { s with events := rest, responses := ⟨0x00, zext64 (statusByte s.status)⟩ :: s.responses }) ∧
      (c.cw ≠ 0x3000 → s.status.err = true → step s =
        .next { s with events := rest, responses := ⟨0x04, 0⟩ :: s.responses }) ∧
      (c.cw ≠ 0x3000 → s.status.err = false → (∃ e, decode c.cw c.opd = .error e) → step s =
        .next { s with
          events := rest
          status := { s.status with err := true, ecode := 1 }
          responses := ⟨0x01, 0⟩ :: s.responses }) ∧
      (∀ i f, c.cw ≠ 0x3000 → s.status.err = false → decode c.cw c.opd = .ok i → ownFault s i = some f →
        step s = .next { s with
          events := rest
          status := { s.status with err := true, ecode := ecodeOf f }
          responses := ⟨rcFault f, 0⟩ :: s.responses }) ∧
      (∀ i, c.cw ≠ 0x3000 → s.status.err = false → decode c.cw c.opd = .ok i → ownFault s i = none →
        Inv s → ∃ t data, step s = .next t ∧ exec i { s with events := rest } = .next t ∧
          t.status.err = false ∧ t.responses = ⟨0x00, data⟩ :: s.responses)

/-- R172, with the codes of R170: a command that latches a fault does exactly this, and none overwrites a code. -/
def Obligations.RaiseLatchesAndResponds : Prop :=
  (ecodeOf .illegalCommand = 1 ∧ ecodeOf .tableNotBuilt = 2 ∧ ecodeOf .reflectRange = 3) ∧
  (∀ (i : Instr) (s t : State), s.status.err = false → exec i s = .next t → t.status.err = true →
    ∃ f, ownFault s i = some f ∧
      t = { s with
        status := { tv := s.status.tv, err := true, ecode := ecodeOf f }
        responses := ⟨(ecodeOf f).setWidth 8, 0⟩ :: s.responses }) ∧
  (∀ s : State, s.status.err = false → rejectIllegal s =
    .next { s with
      status := { tv := s.status.tv, err := true, ecode := 1 }
      responses := ⟨0x01, 0⟩ :: s.responses }) ∧
  (∀ (i : Instr) (s t : State), s.status.err = true → exec i s = .next t → t.status = s.status)

/-- R174: an illegal word in a running block raises IllegalCommand, nothing else does, and `OPD` is never a cause. -/
def Obligations.IllegalCommandRaised : Prop :=
  ∀ (s : State) (c : Command) (rest : List Event),
    s.params.legal = true → s.status.err = false → s.status.ecode = 0 → s.events = .command c :: rest →
      ((∀ r ∈ opcodeRows, selects c.cw r = false) → step s =
        .next { s with
          events := rest
          status := { s.status with err := true, ecode := 1 }
          responses := ⟨0x01, 0⟩ :: s.responses }) ∧
      (∀ t, step s = .next t → t.status.ecode = 1 → ∀ r ∈ opcodeRows, selects c.cw r = false)

/-! ## The commands: what each does, halted, faulting and executing -/

/-- REFLECT (R92, with the bits of R90). -/
def Obligations.ReflectCommand : Prop :=
  ∀ (n : Byte) (v : Word) (s : State),
    (s.status.err = true → exec (.reflect n v) s =
      .next { s with responses := ⟨0x04, 0⟩ :: s.responses }) ∧
    (s.status.err = false → 64 < n.toNat → exec (.reflect n v) s =
      .next { s with
        status := { s.status with err := true, ecode := 3 }
        responses := ⟨0x03, 0⟩ :: s.responses }) ∧
    (s.status.err = false → n.toNat ≤ 64 →
      ∃ r : Word, (∀ i, i < n.toNat → r.getLsbD (n.toNat - 1 - i) = v.getLsbD i) ∧
        (∀ j, n.toNat ≤ j → r.getLsbD j = false) ∧
        exec (.reflect n v) s = .next { s with responses := ⟨0x00, r⟩ :: s.responses })

/-- PARITY (R152, with the exclusive or of R150). -/
def Obligations.ParityCommand : Prop :=
  ∀ (b : Byte) (s : State),
    (s.status.err = true → exec (.parity b) s =
      .next { s with responses := ⟨0x04, 0⟩ :: s.responses }) ∧
    (s.status.err = false → exec (.parity b) s =
      .next { s with responses :=
        ⟨0x00, if b.getLsbD 7 ^^ b.getLsbD 6 ^^ b.getLsbD 5 ^^ b.getLsbD 4 ^^
          b.getLsbD 3 ^^ b.getLsbD 2 ^^ b.getLsbD 1 ^^ b.getLsbD 0 then 1 else 0⟩ :: s.responses })

/-- CRC_INIT (R106). -/
def Obligations.CrcInitCommand : Prop :=
  ∀ s : State, s.params.legal = true →
    (s.status.err = true → exec .crcInit s = .next { s with responses := ⟨0x04, 0⟩ :: s.responses }) ∧
    (s.status.err = false → exec .crcInit s =
      .next { s with rem := s.params.INIT, responses := ⟨0x00, 0⟩ :: s.responses })

/-- REF_BYTE (R107): the byte placed at `SH = W - 8`, then the round eight times. -/
def Obligations.RefByteCommand : Prop :=
  ∀ (b : Byte) (s : State), s.params.legal = true →
    (s.status.err = true → exec (.refByte b) s = .next { s with responses := ⟨0x04, 0⟩ :: s.responses }) ∧
    (s.status.err = false → exec (.refByte b) s =
      .next { s with
        rem := zext64 ((divRound (poly s.params))^[8]
          (remOf s ^^^ BitVec.ofNat s.params.W
            ((if s.params.REFIN then reflect b 8 else b).toNat <<< (s.params.W - 8))))
        responses := ⟨0x00, 0⟩ :: s.responses })

/-- CRC_FINAL (R108, with R104): the value, zero-extended; `REM` unchanged. -/
def Obligations.CrcFinalCommand : Prop :=
  ∀ s : State, s.params.legal = true →
    (s.status.err = true → exec .crcFinal s = .next { s with responses := ⟨0x04, 0⟩ :: s.responses }) ∧
    (s.status.err = false → ∃ c : Word,
      c = zext64 (if s.params.REFOUT then reflect (remOf s) s.params.W else remOf s) ^^^ s.params.XOROUT ∧
      c.toNat < 2 ^ s.params.W ∧
      exec .crcFinal s = .next { s with responses := ⟨0x00, c⟩ :: s.responses })

/-- CRC_CHECK (R158): the value CRC_FINAL would return, compared on all 64 bits. -/
def Obligations.CrcCheckCommand : Prop :=
  ∀ (e : Word) (s : State), s.params.legal = true →
    (s.status.err = true → exec (.crcCheck e) s = .next { s with responses := ⟨0x04, 0⟩ :: s.responses }) ∧
    (s.status.err = false → exec (.crcCheck e) s =
      .next { s with responses :=
        ⟨0x00, if zext64 (finalize s.params (remOf s)) = e then 1 else 0⟩ :: s.responses }) ∧
    (s.status.err = false → (∃ j, s.params.W ≤ j ∧ e.getLsbD j = true) → exec (.crcCheck e) s =
      .next { s with responses := ⟨0x00, 0⟩ :: s.responses })

/-- BUILD_TABLE (R122): all 256 entries, then `TV <- 1`; `REM` untouched. -/
def Obligations.BuildTableCommand : Prop :=
  ∀ s : State, s.params.legal = true →
    (s.status.err = true → exec .buildTable s = .next { s with responses := ⟨0x04, 0⟩ :: s.responses }) ∧
    (s.status.err = false → ∃ tab : Memory,
      exec .buildTable s = .next { s with
        table := tab
        status := { s.status with tv := true }
        responses := ⟨0x00, 0⟩ :: s.responses } ∧
      ∀ d : Byte, tblRead tab d = some (zext64
        ((divRound (poly s.params))^[8] (BitVec.ofNat s.params.W (d.toNat <<< (s.params.W - 8))))))

/-- TBL_RD (R124). -/
def Obligations.TblRdCommand : Prop :=
  ∀ (i : Byte) (s : State), s.params.legal = true →
    (s.status.err = true → exec (.tblRd i) s = .next { s with responses := ⟨0x04, 0⟩ :: s.responses }) ∧
    (s.status.err = false → s.status.tv = false → exec (.tblRd i) s =
      .next { s with
        status := { s.status with err := true, ecode := 2 }
        responses := ⟨0x02, 0⟩ :: s.responses }) ∧
    (∀ e : BitVec s.params.W, s.status.err = false → s.status.tv = true →
      tblRead s.table i = some (zext64 e) → exec (.tblRd i) s =
        .next { s with responses := ⟨0x00, zext64 e⟩ :: s.responses })

/-- FAST_BYTE (R136, with R135): one entry read, at `refin(b) xor (REM >> SH)`. -/
def Obligations.FastByteCommand : Prop :=
  ∀ (b : Byte) (s : State), s.params.legal = true →
    (s.status.err = true → exec (.fastByte b) s = .next { s with responses := ⟨0x04, 0⟩ :: s.responses }) ∧
    (s.status.err = false → s.status.tv = false → exec (.fastByte b) s =
      .next { s with
        status := { s.status with err := true, ecode := 2 }
        responses := ⟨0x02, 0⟩ :: s.responses }) ∧
    (∀ (idx : Byte) (e : BitVec s.params.W), s.status.err = false → s.status.tv = true →
      idx.toNat = (if s.params.REFIN then reflect b 8 else b).toNat ^^^ ((remOf s).toNat >>> (s.params.W - 8)) →
      tblRead s.table idx = some (zext64 e) → exec (.fastByte b) s =
        .next { s with rem := zext64 (e ^^^ (remOf s <<< 8)), responses := ⟨0x00, 0⟩ :: s.responses })

/-- RD_STATUS (R160): executed in every state, with the values that can ever be returned. -/
def Obligations.RdStatusCommand : Prop :=
  (∀ s : State, ∃ r : Word,
    exec .rdStatus s = .next { s with responses := ⟨0x00, r⟩ :: s.responses } ∧
    r.getLsbD 0 = s.status.tv ∧ r.getLsbD 1 = s.status.err ∧ r.getLsbD 2 = false ∧ r.getLsbD 3 = false ∧
    r.extractLsb' 4 4 = s.status.ecode ∧ (∀ j, 8 ≤ j → r.getLsbD j = false)) ∧
  (∀ s : State, Inv s →
    statusByte s.status ∈ ([0x00, 0x01, 0x12, 0x13, 0x22, 0x32, 0x33] : List Byte))

/-- The model's stop (log entry 6): a valid table with an entry nothing has written, which no run reaches. -/
def Obligations.UnwrittenEntryStops : Prop :=
  (∀ (i : Byte) (s : State), s.status.err = false → s.status.tv = true → tblRead s.table i = none →
    exec (.tblRd i) s = .fault (.tableEntryUnwritten i)) ∧
  (∀ (b : Byte) (s : State), s.status.err = false → s.status.tv = true →
    tblRead s.table (tableIndex s.params (remOf s) b) = none →
      exec (.fastByte b) s = .fault (.tableEntryUnwritten (tableIndex s.params (remOf s) b)))

/-! ## Frames (10_state.md R34) -/

/-- Every command but CRC_INIT, REF_BYTE and FAST_BYTE leaves `REM` unchanged, and no command leaves it changed
when it faults or is answered in the halted state. -/
def Obligations.FrameOfRem : Prop :=
  ∀ (i : Instr) (s t : State), exec i s = .next t →
    (writesRem i = false → t.rem = s.rem) ∧ (t.status.err = true → t.rem = s.rem)

/-- Every command but BUILD_TABLE leaves every table entry and `TV` unchanged; BUILD_TABLE too when halted. -/
def Obligations.FrameOfTable : Prop :=
  ∀ (i : Instr) (s t : State), exec i s = .next t →
    ((writesTable i = false ∨ s.status.err = true) →
      (∀ d : Byte, tblRead t.table d = tblRead s.table d) ∧ t.table = s.table ∧ t.status.tv = s.status.tv)

/-- `ERR` and `ECODE` change only when REFLECT, FAST_BYTE or TBL_RD raises its own fault. -/
def Obligations.FrameOfFaultBits : Prop :=
  ∀ (i : Instr) (s t : State), exec i s = .next t →
    (mayFault i = false → t.status.err = s.status.err ∧ t.status.ecode = s.status.ecode) ∧
    (ownFault s i = none → t.status.err = s.status.err ∧ t.status.ecode = s.status.ecode)

/-- No command changes `P` or the host's pending events, and each gives exactly one response, whose code is one of
R72's and whose data is 0 unless the command executed. -/
def Obligations.OneResponsePerCommand : Prop :=
  (∀ (i : Instr) (s t : State), exec i s = .next t →
    t.params = s.params ∧ t.events = s.events ∧
    ∃ r : Response, t.responses = r :: s.responses ∧ r.rc.toNat ≤ 4 ∧ (r.rc ≠ 0 → r.rdata = 0)) ∧
  (∀ (s t : State) (c : Command) (rest : List Event), s.events = .command c :: rest → step s = .next t →
    t.params = s.params ∧ t.events = rest ∧
    ∃ r : Response, t.responses = r :: s.responses ∧ r.rc.toNat ≤ 4 ∧ (r.rc ≠ 0 → r.rdata = 0)) ∧
  (∀ s t : State, (∀ c rest, s.events ≠ .command c :: rest) → step s = .next t →
    t.responses = s.responses ∧ t.params = s.params)

/-! ## The pure functions -/

/-- R90: `reflect` bit by bit; a storage of `w ≥ n` bits holds any value, so every `v` and `n` is covered. -/
def Obligations.ReflectReversesLowBits : Prop :=
  ∀ (w n : Nat) (v : BitVec w), n ≤ w →
    (∀ i, i < n → (reflect v n).getLsbD (n - 1 - i) = v.getLsbD i) ∧
    (∀ j, n ≤ j → (reflect v n).getLsbD j = false) ∧
    (reflect v n).toNat = ∑ i ∈ Finset.range n, (v.getLsbD i).toNat * 2 ^ (n - 1 - i) ∧
    (reflect v n).toNat < 2 ^ n ∧ reflect v 0 = 0

/-- R93: reflecting twice returns `v mod 2^n`. -/
def Obligations.ReflectTwiceIsModulo : Prop :=
  ∀ (w n : Nat) (v : BitVec w), n ≤ w →
    (reflect (reflect v n) n).toNat = v.toNat % 2 ^ n ∧
    (v.toNat < 2 ^ n → reflect (reflect v n) n = v)

/-- R94 (a) to (f). -/
def Obligations.ReflectLaws : Prop :=
  (∀ (w n : Nat) (a b : BitVec w), n ≤ w → reflect (a ^^^ b) n = reflect a n ^^^ reflect b n) ∧
  (∀ (w n : Nat) (v : BitVec w), n ≤ w → reflect v n = reflect (BitVec.ofNat w (v.toNat % 2 ^ n)) n) ∧
  (∀ (w n : Nat), n ≤ w →
    Set.BijOn (fun v : BitVec w => reflect v n) {v | v.toNat < 2 ^ n} {v | v.toNat < 2 ^ n} ∧
    ∀ v : BitVec w, v.toNat < 2 ^ n → reflect (reflect v n) n = v) ∧
  (∀ (w n i : Nat), n ≤ w →
    (i < n → reflect (BitVec.ofNat w (2 ^ i)) n = BitVec.ofNat w (2 ^ (n - 1 - i))) ∧
    (n ≤ i → reflect (BitVec.ofNat w (2 ^ i)) n = 0)) ∧
  (∀ (w n : Nat), n ≤ w → reflect (0 : BitVec w) n = 0 ∧
    reflect (BitVec.ofNat w (2 ^ n - 1)) n = BitVec.ofNat w (2 ^ n - 1)) ∧
  (∀ (w n : Nat) (v : BitVec w), n ≤ w →
    (List.range n).countP (fun i => (reflect v n).getLsbD i) = (List.range n).countP (fun i => v.getLsbD i)) ∧
  (∀ b : Byte, oddParity (reflect b 8) = oddParity b)

/-- R150: the fold's result is `true` if and only if the number of 1 bits is odd, the exclusive or of the bits. -/
def Obligations.ParityCountsOnes : Prop :=
  ∀ b : Byte,
    (oddParity b = true ↔ ((List.range 8).countP fun i => b.getLsbD i) % 2 = 1) ∧
    oddParity b = (b.getLsbD 7 ^^ b.getLsbD 6 ^^ b.getLsbD 5 ^^ b.getLsbD 4 ^^
      b.getLsbD 3 ^^ b.getLsbD 2 ^^ b.getLsbD 1 ^^ b.getLsbD 0)

/-- R154 (a) to (e). -/
def Obligations.ParityLaws : Prop :=
  (∀ a c : Byte, oddParity (a ^^^ c) = (oddParity a ^^ oddParity c)) ∧
  (∀ (b : Byte) (i : Nat), i < 8 → oddParity (b ^^^ BitVec.ofNat 8 (2 ^ i)) = !oddParity b) ∧
  ((List.range 256).countP fun n => oddParity (BitVec.ofNat 8 n)) = 128 ∧
  (∀ b : Byte, oddParity (reflect b 8) = oddParity b) ∧
  (∀ b : Byte, oddParity b = (b.getLsbD 7 ^^ b.getLsbD 6 ^^ b.getLsbD 5 ^^ b.getLsbD 4 ^^
    b.getLsbD 3 ^^ b.getLsbD 2 ^^ b.getLsbD 1 ^^ b.getLsbD 0))

/-- R100 and R101 on integers: the shift is truncated, the bit tested is the top bit before the shift, `POLY` is
XORed whole after it; `div8` is the round eight times. -/
def Obligations.RoundShiftsAndXors : Prop :=
  (∀ (w : Nat) (poly r : BitVec w),
    (divRound poly r).toNat =
      if r.toNat.testBit (w - 1) then ((r.toNat <<< 1) % 2 ^ w) ^^^ poly.toNat else (r.toNat <<< 1) % 2 ^ w) ∧
  (∀ (w : Nat) (poly r : BitVec w), div8 poly r = (divRound poly)^[8] r)

/-- R112: linearity, and its three consequences. -/
def Obligations.DividerIsLinear : Prop :=
  (∀ (w : Nat) (poly a c : BitVec w), divRound poly (a ^^^ c) = divRound poly a ^^^ divRound poly c) ∧
  (∀ (w : Nat) (poly a c : BitVec w), div8 poly (a ^^^ c) = div8 poly a ^^^ div8 poly c) ∧
  (∀ (P : Params) (a c : BitVec P.W) (b : Byte),
    refStep P (a ^^^ c) b ^^^ refStep P 0 b =
      (refStep P a b ^^^ refStep P 0 b) ^^^ (refStep P c b ^^^ refStep P 0 b)) ∧
  (∀ (w : Nat) (poly : BitVec w), div8 poly 0 = 0) ∧
  (∀ (P : Params) (r : BitVec P.W) (b : Byte),
    refStep P r b = div8 (poly P) r ^^^ div8 (poly P) (placeByte P.W (refin P b))) ∧
  (∀ (w : Nat) (poly a : BitVec w), 8 ≤ w → a.toNat < 2 ^ (w - 8) → div8 poly a = a <<< 8)

/-- R110: `finalize` is a bijection, with the inverse the rule gives. -/
def Obligations.FinalizeIsBijective : Prop :=
  ∀ P : Params, Function.Bijective (finalize P) ∧
    (∀ r : BitVec P.W,
      (if P.REFOUT then reflect (finalize P r ^^^ xorout P) P.W else finalize P r ^^^ xorout P) = r)

/-- R111: the empty message, on both paths; 0xFF for the CRC-8 preset. -/
def Obligations.EmptyMessageIsFinalizedInit : Prop :=
  (∀ P : Params, crcRef P [] = finalize P (initial P)) ∧
  (∀ (P : Params) (T : Byte → BitVec P.W), crcFast P T [] = finalize P (initial P)) ∧
  (crcRef .crc8 []).toNat = 0xFF

/-- R113: with `POLY[0] = 1`, which legality asks, inverting one bit of one byte changes the CRC. -/
def Obligations.SingleBitErrorDetected : Prop :=
  ∀ (P : Params) (m₁ m₂ : List Byte) (b : Byte) (i : Nat), P.legal = true → i < 8 →
    crcRef P (m₁ ++ (b ^^^ BitVec.ofNat 8 (2 ^ i)) :: m₂) ≠ crcRef P (m₁ ++ b :: m₂)

/-- R121: the table depends on `W` and `POLY` only. -/
def Obligations.TableDependsOnWidthAndPoly : Prop :=
  ∀ (P Q : Params) (d : Byte), P.W = Q.W → P.POLY = Q.POLY → zext64 (tbl P d) = zext64 (tbl Q d)

/-- R128 (a) to (e), and the eight generators of the CRC-8 preset. -/
def Obligations.TableStructure : Prop :=
  (∀ P : Params, P.legal = true →
    tbl P 0 = 0 ∧ tbl P 1 = poly P ∧
    (∀ a c : Byte, tbl P (a ^^^ c) = tbl P a ^^^ tbl P c) ∧
    (∀ a c : Byte, tbl P a = tbl P c → a = c) ∧
    (P.W = 8 → ∀ y : Byte, ∃ d, (tbl P d).toNat = y.toNat) ∧
    (∀ d, (tbl P d).toNat ≤ 2 ^ P.W - 1)) ∧
  [1, 2, 4, 8, 16, 32, 64, 128].map (fun d => (tbl .crc8 d).toNat) =
    [0x31, 0x62, 0xC4, 0xB9, 0x43, 0x86, 0x3D, 0x7A]

/-- R127: a valid table holds `tbl`, which is the reference CRC of the one byte under the modified parameters; with
input reflection left on, that CRC is the entry of the reflected byte. -/
def Obligations.TableSelfConsistent : Prop :=
  (∀ s : State, Inv s → s.status.tv = true → ∀ d : Byte,
    tblRead s.table d = some (zext64 (div8 (poly s.params) (placeByte s.params.W d))) ∧
    tblRead s.table d = some (zext64 (crcRef
      { s.params with INIT := 0, XOROUT := 0, REFIN := false, REFOUT := false } [d]))) ∧
  (∀ s : State, Inv s → s.status.tv = true → ∀ b : Byte,
    tblRead s.table (reflect b 8) = some (zext64 (crcRef
      { s.params with INIT := 0, XOROUT := 0, REFIN := true, REFOUT := false } [b])))

/-- R135 on integers: the index and the new remainder of one fast step. -/
def Obligations.FastStepFormula : Prop :=
  ∀ (P : Params) (T : Byte → BitVec P.W) (r : BitVec P.W) (b : Byte), P.legal = true →
    ∃ idx : Byte, idx.toNat = (if P.REFIN then reflect b 8 else b).toNat ^^^ (r.toNat >>> (P.W - 8)) ∧
      (fastStep P T r b).toNat = (T idx).toNat ^^^ ((r.toNat <<< 8) % 2 ^ P.W) ∧
      (P.W = 8 → fastStep P T r b = T idx)

/-- R141: with a table that holds `tbl`, one fast step is one reference step. -/
def Obligations.StepEquivalence : Prop :=
  ∀ (P : Params) (T : Byte → BitVec P.W), P.legal = true → (∀ d, T d = tbl P d) →
    ∀ (r : BitVec P.W) (b : Byte), fastStep P T r b = refStep P r b

/-- R142: with a valid table, the fast CRC of every message is its reference CRC. -/
def Obligations.OracleEquivalence : Prop :=
  ∀ (s : State) (T : Byte → BitVec s.params.W), Inv s → s.status.tv = true →
    (∀ d, tblRead s.table d = some (zext64 (T d))) →
      ∀ m : List Byte, crcFast s.params T m = crcRef s.params m

/-- R165: the zero-residue check. -/
def Obligations.ZeroResidueCheck : Prop :=
  (∀ (P : Params) (m : List Byte) (c : Byte), P.legal = true → P.W = 8 → P.REFIN = false →
    P.REFOUT = false → P.XOROUT = 0 →
      crcRef P m = refBytes P (initial P) m ∧
      (crcRef P (m ++ [c]) = 0 ↔ (crcRef P m).toNat = c.toNat)) ∧
  (crcRef .crc8 [0xBE, 0xEF, 0x92]).toNat = 0

/-! ## Command sequences (30_encoding.md R83 to R88) -/

/-- R109: computeReference. -/
def Obligations.ComputeReferenceRuns : Prop :=
  ∀ (s : State) (m : List Byte), s.params.legal = true → s.status.err = false →
    steps (m.length + 2) (issue (computeReference m) s) = .next { s with
      rem := zext64 (refBytes s.params (initial s.params) m)
      responses := ⟨0x00, zext64 (crcRef s.params m)⟩ ::
        (List.replicate (m.length + 1) ⟨0x00, 0⟩ ++ s.responses) }

/-- R139: computeFast, over whatever W-bit table is built. -/
def Obligations.ComputeFastRuns : Prop :=
  ∀ (s : State) (T : Byte → BitVec s.params.W) (m : List Byte), s.params.legal = true →
    s.status.err = false → s.status.tv = true → (∀ d, tblRead s.table d = some (zext64 (T d))) →
    steps (m.length + 2) (issue (computeFast m) s) = .next { s with
      rem := zext64 (fastBytes s.params T (initial s.params) m)
      responses := ⟨0x00, zext64 (crcFast s.params T m)⟩ ::
        (List.replicate (m.length + 1) ⟨0x00, 0⟩ ++ s.responses) }

/-- R140: with no byte the fast sequence needs no table. -/
def Obligations.EmptyFastMessageNeedsNoTable : Prop :=
  ∀ s : State, s.params.legal = true → s.status.err = false →
    computeFast [] = computeReference [] ∧
    steps 2 (issue (computeFast []) s) = .next { s with
      rem := s.params.INIT
      responses := ⟨0x00, zext64 (finalize s.params (initial s.params))⟩ :: ⟨0x00, 0⟩ :: s.responses }

/-- R143: any mixture of the two byte commands gives the reference CRC. -/
def Obligations.MixedPathsAgree : Prop :=
  ∀ (s : State) (m : List (Bool × Byte)), Inv s → s.status.err = false → s.status.tv = true →
    steps (m.length + 2) (issue (.crcInit :: (mixedBytes m ++ [.crcFinal])) s) = .next { s with
      rem := zext64 (refBytes s.params (initial s.params) (m.map Prod.snd))
      responses := ⟨0x00, zext64 (crcRef s.params (m.map Prod.snd))⟩ ::
        (List.replicate (m.length + 1) ⟨0x00, 0⟩ ++ s.responses) }

/-- R159: the validation sequence, on the reference path, and with any FAST_BYTE in place of a REF_BYTE when the
table is built. -/
def Obligations.ValidateRuns : Prop :=
  (∀ (s : State) (m : List Byte) (e : Word), s.params.legal = true → s.status.err = false →
    ∃ t, steps (m.length + 2) (issue (validateReference m e) s) = .next t ∧
      t.responses.head? = some ⟨0x00, if zext64 (crcRef s.params m) = e then 1 else 0⟩) ∧
  (∀ (s : State) (m : List (Bool × Byte)) (e : Word), Inv s → s.status.err = false → s.status.tv = true →
    ∃ t, steps (m.length + 2) (issue (.crcInit :: (mixedBytes m ++ [.crcCheck e])) s) = .next t ∧
      t.responses.head? =
        some ⟨0x00, if zext64 (crcRef s.params (m.map Prod.snd)) = e then 1 else 0⟩)

/-- R166: CRC_CHECK `e` returns 1 exactly when CRC_FINAL would return `e`, and 0 otherwise. -/
def Obligations.CheckAgreesWithFinal : Prop :=
  ∀ (s : State) (e : Word), s.status.err = false →
    ∃ c r : Word, exec .crcFinal s = .next { s with responses := ⟨0x00, c⟩ :: s.responses } ∧
      exec (.crcCheck e) s = .next { s with responses := ⟨0x00, r⟩ :: s.responses } ∧
      (r = 1 ↔ c = e) ∧ (r = 0 ↔ c ≠ e)

/-! ## Invariants and whole-machine rules -/

/-- The invariants hold after the reset of every legal instance (R35, R33). -/
def Obligations.ResetMeetsInvariant : Prop :=
  (∀ P : Params, P.legal = true → Inv (State.resetOf P)) ∧ Inv State.reset

/-- Every step keeps the invariants (R35 (a) to (e)). -/
def Obligations.StepKeepsInvariant : Prop :=
  ∀ s t : State, Inv s → step s = .next t → Inv t

/-- From every state that meets the invariants the machine goes on: no step faults or refuses (R13, R18, R202). -/
def Obligations.MachineNeverStops : Prop :=
  ∀ s : State, Inv s → ∃ t, step s = .next t

/-- R35 (g) and (h): until a reset, `TV = 1` stays 1, and `ERR = 1` freezes the block's state. -/
def Obligations.FlagsHoldUntilReset : Prop :=
  ∀ s t : State, step s = .next t → (∀ rest, s.events ≠ .reset :: rest) →
    (s.status.tv = true → t.status.tv = true) ∧
    (s.status.err = true → t.rem = s.rem ∧ t.table = s.table ∧ t.status = s.status)

/-- R25, R35 (f): the layout of the status byte, its reserved bits 0 whatever the state. -/
def Obligations.StatusByteLayout : Prop :=
  ∀ st : Status,
    (statusByte st).getLsbD 0 = st.tv ∧ (statusByte st).getLsbD 1 = st.err ∧
    (statusByte st).extractLsb' 2 2 = 0 ∧ (statusByte st).extractLsb' 4 4 = st.ecode

/-- R123: a second BUILD_TABLE adds its response and changes nothing else, right after a first one and in every
state of the invariants with `TV = 1`. -/
def Obligations.RebuildIsIdempotent : Prop :=
  (∀ s t : State, s.table.wf = true → s.status.err = false → exec .buildTable s = .next t →
    t.table.wf = true ∧ t.status.tv = true ∧
    exec .buildTable t = .next { t with responses := ⟨0x00, 0⟩ :: t.responses }) ∧
  (∀ s : State, Inv s → s.status.tv = true → s.status.err = false →
    exec .buildTable s = .next { s with responses := ⟨0x00, 0⟩ :: s.responses })

/-- R126: while `TV = 0` no command's response, remainder or status depends on the table's content. -/
def Obligations.TableUnreadWhileInvalid : Prop :=
  ∀ (i : Instr) (s : State) (m₁ m₂ : Memory), s.status.tv = false →
    ∃ t₁ t₂, exec i { s with table := m₁ } = .next t₁ ∧ exec i { s with table := m₂ } = .next t₂ ∧
      t₁.rem = t₂.rem ∧ t₁.status = t₂.status ∧ t₁.responses = t₂.responses

end
end

