-- ==== Sys2Proof/Laws/Decode.lean ====
section
/-! SUPPORT. The fields of a command word (30_encoding.md R70) and how a word selects its row (R74). -/

namespace Sys2Proof

@[simp] theorem opcodeOf_cmdWord (op b : Byte) : opcodeOf (cmdWord op b) = op :=
  BitVec.extractLsb'_append_eq_left

@[simp] theorem imm8Of_cmdWord (op b : Byte) : imm8Of (cmdWord op b) = b :=
  BitVec.extractLsb'_append_eq_right

/-- Bit `i` of a command word: of `imm8` below bit 8, of the opcode from bit 8 on. -/
theorem getLsbD_cmdWord (op b : Byte) (i : Nat) :
    (cmdWord op b).getLsbD i = if i < 8 then b.getLsbD i else op.getLsbD (i - 8) :=
  BitVec.getLsbD_append

/-- A command word is its two fields. -/
theorem cmdWord_fields (cw : CmdWord) : cmdWord (opcodeOf cw) (imm8Of cw) = cw := by
  apply BitVec.eq_of_getLsbD_eq
  intro i hi
  rw [getLsbD_cmdWord]
  split
  · rename_i h
    simp [imm8Of, h]
  · rename_i h
    have h₁ : i - 8 < 8 := by omega
    have h₂ : 8 + (i - 8) = i := by omega
    simp [opcodeOf, h₁, h₂]

/-- Masking with 0xFF00 keeps the opcode and clears `imm8`. -/
theorem cmdWord_and_opcode_mask (op b : Byte) : cmdWord op b &&& 0xFF00 = cmdWord op 0 := by
  have hm : (0xFF00 : CmdWord) = cmdWord (BitVec.allOnes 8) 0 := by decide
  rw [hm]
  apply BitVec.eq_of_getLsbD_eq
  intro i hi
  rw [BitVec.getLsbD_and, getLsbD_cmdWord, getLsbD_cmdWord, getLsbD_cmdWord]
  split
  · simp
  · have : i - 8 < 8 := by omega
    rw [BitVec.getLsbD_allOnes, decide_eq_true this, Bool.and_true]

/-- Masking with 0xFFFF keeps the whole word. -/
theorem cmdWord_and_full_mask (cw : CmdWord) : cw &&& 0xFFFF = cw :=
  BitVec.and_allOnes

theorem mustBeZero_zero {cw : CmdWord} (h : imm8Of cw = 0) (i : Instr) : mustBeZero cw i = .ok i :=
  if_pos h

theorem mustBeZero_nonzero {cw : CmdWord} (h : imm8Of cw ≠ 0) (i : Instr) :
    mustBeZero cw i = .error (.nonzeroImm8 (opcodeOf cw) (imm8Of cw)) :=
  if_neg h

/-- Every instruction's row is a row of the opcode map. -/
theorem rowOf_mem (i : Instr) : rowOf i ∈ opcodeRows := by
  cases i <;> simp [rowOf, opcodeRows]

end Sys2Proof
end

