-- ==== Sys2Proof/Laws/Ops.lean ====
section
/-! SUPPORT. One lemma per shared operation: everything it can answer. -/

namespace Sys2Proof.Machine

variable {s t : State} {k : Host.Outcome State Fault Refusal}

/-- The halted check answers Halted, or goes on in a running block. -/
theorem unlessHalted_cases (s : State) (k : Host.Outcome State Fault Refusal) :
    (s.status.err = true ∧ unlessHalted s k = .next (respond rcHalted 0 s)) ∨
      (s.status.err = false ∧ unlessHalted s k = k) := by
  cases h : s.status.err <;> simp [unlessHalted, h]

theorem unlessHalted_running (h : s.status.err = false) : unlessHalted s k = k := by
  simp [unlessHalted, h]

theorem unlessHalted_halted (h : s.status.err = true) :
    unlessHalted s k = .next (respond rcHalted 0 s) := by
  simp [unlessHalted, h]

/-- The table check raises TableNotBuilt, or goes on with a valid table. -/
theorem requireTable_cases (s : State) (k : Host.Outcome State Fault Refusal) :
    (s.status.tv = false ∧ requireTable s k = .next (raise .tableNotBuilt s)) ∨
      (s.status.tv = true ∧ requireTable s k = k) := by
  cases h : s.status.tv <;> simp [requireTable, h]

theorem requireTable_valid (h : s.status.tv = true) : requireTable s k = k := by
  simp [requireTable, h]

theorem requireTable_invalid (h : s.status.tv = false) :
    requireTable s k = .next (raise .tableNotBuilt s) := by
  simp [requireTable, h]

/-- The count check raises ReflectRange above 64, or goes on. -/
theorem requireCount_cases (n : Byte) (s : State) (k : Host.Outcome State Fault Refusal) :
    (64 < n.toNat ∧ requireCount n s k = .next (raise .reflectRange s)) ∨
      (n.toNat ≤ 64 ∧ requireCount n s k = k) := by
  unfold requireCount reflectStorageWidth
  split
  · exact .inl ⟨‹_›, rfl⟩
  · exact .inr ⟨Nat.le_of_not_lt ‹_›, rfl⟩

/-- A table read goes on with the entry, or stops where nothing has been written. -/
theorem withEntry_cases (s : State) (i : Byte)
    (f : BitVec s.params.W → Host.Outcome State Fault Refusal) :
    (∃ e, tblRead s.table i = some e ∧ withEntry s i f = f (e.setWidth s.params.W)) ∨
      (tblRead s.table i = none ∧ withEntry s i f = .fault (.tableEntryUnwritten i)) := by
  cases h : tblRead s.table i with
  | none => exact .inr ⟨rfl, by simp [withEntry, h]⟩
  | some e => exact .inl ⟨e, rfl, by simp [withEntry, h]⟩

/-- The legality check goes on for a legal instance, or refuses. -/
theorem requireLegal_cases (s : State) (k : Host.Outcome State Fault Refusal) :
    (s.params.legal = true ∧ requireLegal s k = k) ∨
      (s.params.legal = false ∧ requireLegal s k = .refused .illegalParameters) := by
  cases h : s.params.legal <;> simp [requireLegal, h]

theorem requireLegal_legal (h : s.params.legal = true) : requireLegal s k = k := by
  simp [requireLegal, h]

/-- Executing an illegal word answers Halted, or raises IllegalCommand. -/
theorem rejectIllegal_cases (s : State) :
    (s.status.err = true ∧ rejectIllegal s = .next (respond rcHalted 0 s)) ∨
      (s.status.err = false ∧ rejectIllegal s = .next (raise .illegalCommand s)) :=
  unlessHalted_cases s _

end Sys2Proof.Machine
end

