-- ==== Sys2Proof/Laws/State.lean ====
section
/-! SUPPORT. Each update of the state, field by field: what it sets and what it leaves. -/

namespace Sys2Proof.Machine

section Respond
variable (rc : Byte) (data : Word) (s : State)

@[simp] theorem respond_params : (respond rc data s).params = s.params := rfl
@[simp] theorem respond_rem : (respond rc data s).rem = s.rem := rfl
@[simp] theorem respond_table : (respond rc data s).table = s.table := rfl
@[simp] theorem respond_status : (respond rc data s).status = s.status := rfl
@[simp] theorem respond_events : (respond rc data s).events = s.events := rfl
@[simp] theorem respond_responses : (respond rc data s).responses = ⟨rc, data⟩ :: s.responses := rfl

@[simp] theorem ok_params : (ok data s).params = s.params := rfl
@[simp] theorem ok_rem : (ok data s).rem = s.rem := rfl
@[simp] theorem ok_table : (ok data s).table = s.table := rfl
@[simp] theorem ok_status : (ok data s).status = s.status := rfl
@[simp] theorem ok_events : (ok data s).events = s.events := rfl
@[simp] theorem ok_responses : (ok data s).responses = ⟨rcOk, data⟩ :: s.responses := rfl

end Respond

section Raise
variable (f : FaultCode) (s : State)

@[simp] theorem raise_params : (raise f s).params = s.params := rfl
@[simp] theorem raise_rem : (raise f s).rem = s.rem := rfl
@[simp] theorem raise_table : (raise f s).table = s.table := rfl
@[simp] theorem raise_status : (raise f s).status = latchFault f s.status := rfl
@[simp] theorem raise_events : (raise f s).events = s.events := rfl
@[simp] theorem raise_responses : (raise f s).responses = ⟨rcFault f, 0⟩ :: s.responses := rfl

@[simp] theorem latchFault_tv (st : Status) : (latchFault f st).tv = st.tv := rfl
@[simp] theorem latchFault_err (st : Status) : (latchFault f st).err = true := rfl
@[simp] theorem latchFault_ecode (st : Status) : (latchFault f st).ecode = ecodeOf f := rfl

end Raise

section MarkTableValid
variable (st : Status)

@[simp] theorem markTableValid_tv : (markTableValid st).tv = true := rfl
@[simp] theorem markTableValid_err : (markTableValid st).err = st.err := rfl
@[simp] theorem markTableValid_ecode : (markTableValid st).ecode = st.ecode := rfl

end MarkTableValid

section SetRem
variable (s : State) (r : BitVec s.params.W)

@[simp] theorem setRem_params : (setRem s r).params = s.params := rfl
@[simp] theorem setRem_rem : (setRem s r).rem = zext64 r := rfl
@[simp] theorem setRem_table : (setRem s r).table = s.table := rfl
@[simp] theorem setRem_status : (setRem s r).status = s.status := rfl
@[simp] theorem setRem_events : (setRem s r).events = s.events := rfl
@[simp] theorem setRem_responses : (setRem s r).responses = s.responses := rfl

end SetRem

section ApplyReset
variable (s : State)

@[simp] theorem applyReset_params : (applyReset s).params = s.params := rfl
@[simp] theorem applyReset_rem : (applyReset s).rem = zext64 (initial s.params) := rfl
@[simp] theorem applyReset_table : (applyReset s).table = [] := rfl
@[simp] theorem applyReset_status : (applyReset s).status = Status.reset := rfl
@[simp] theorem applyReset_events : (applyReset s).events = s.events := rfl
@[simp] theorem applyReset_responses : (applyReset s).responses = s.responses := rfl

end ApplyReset

section Events
variable (c : Command) (s : State)

@[simp] theorem issueFirst_params : (issueFirst c s).params = s.params := rfl
@[simp] theorem issueFirst_rem : (issueFirst c s).rem = s.rem := rfl
@[simp] theorem issueFirst_table : (issueFirst c s).table = s.table := rfl
@[simp] theorem issueFirst_status : (issueFirst c s).status = s.status := rfl
@[simp] theorem issueFirst_events : (issueFirst c s).events = .command c :: s.events := rfl
@[simp] theorem issueFirst_responses : (issueFirst c s).responses = s.responses := rfl

/-- What taking an event can do: none is pending, or the oldest one leaves the queue and nothing else changes. -/
theorem takeEvent_cases :
    (s.events = [] ∧ takeEvent s = none) ∨
      ∃ e rest, s.events = e :: rest ∧ takeEvent s = some (e, { s with events := rest }) := by
  unfold takeEvent
  cases h : s.events with
  | nil => exact .inl ⟨rfl, rfl⟩
  | cons e rest => exact .inr ⟨e, rest, rfl, rfl⟩

end Events

end Sys2Proof.Machine
end

