-- ==== Sys2Proof/Laws/Exec.lean ====
section
/-! SUPPORT. Everything an executed command, and a step, can answer: the inversion lemmas that frames and invariants cite. -/

namespace Sys2Proof.Machine

/-- What a command that passed its checks can do: respond only, write `REM`, or build the table. -/
def Executed (i : Instr) (s t : State) : Prop :=
  ∃ data : Word,
    (writesRem i = false ∧ i ≠ .buildTable ∧ t = ok data s) ∨
    (writesRem i = true ∧ ∃ r : BitVec s.params.W, t = ok data (setRem s r)) ∨
    (i = .buildTable ∧ t = ok data { s with
      table := buildAll s.params s.table
      status := markTableValid s.status })

/-- A command that answers a next state was answered Halted, raised its own fault, or executed. -/
theorem exec_next_cases {i : Instr} {s t : State} (h : exec i s = .next t) :
    (s.status.err = true ∧ i ≠ .rdStatus ∧ t = respond rcHalted 0 s) ∨
    (s.status.err = false ∧ ∃ f, ownFault s i = some f ∧ t = raise f s) ∨
    ((s.status.err = false ∨ i = .rdStatus) ∧ ownFault s i = none ∧ Executed i s t) := by
  have running : ∀ {i : Instr} {k : Host.Outcome State Fault Refusal}, i ≠ .rdStatus →
      unlessHalted s k = .next t →
      (k = .next t → s.status.err = false → (s.status.err = false ∧ ∃ f, ownFault s i = some f ∧ t = raise f s) ∨
        ((s.status.err = false ∨ i = .rdStatus) ∧ ownFault s i = none ∧ Executed i s t)) →
      (s.status.err = true ∧ i ≠ .rdStatus ∧ t = respond rcHalted 0 s) ∨
      (s.status.err = false ∧ ∃ f, ownFault s i = some f ∧ t = raise f s) ∨
      ((s.status.err = false ∨ i = .rdStatus) ∧ ownFault s i = none ∧ Executed i s t) := by
    intro i k hi hk go
    rcases unlessHalted_cases s k with ⟨herr, hh⟩ | ⟨herr, hh⟩
    · rw [hh] at hk
      cases hk
      exact .inl ⟨herr, hi, rfl⟩
    · exact .inr (go (hh ▸ hk) herr)
  cases i with
  | reflect n v =>
    refine running (by simp) h fun hk herr => ?_
    rcases requireCount_cases n s (.next (ok (reflect v n.toNat) s)) with ⟨hn, hc⟩ | ⟨hn, hc⟩ <;>
      rw [hc] at hk <;> cases hk
    · exact .inl ⟨herr, .reflectRange, if_pos hn, rfl⟩
    · exact .inr ⟨.inl herr, if_neg (Nat.not_lt.2 hn), _, .inl ⟨rfl, by simp, rfl⟩⟩
  | parity b =>
    refine running (by simp) h fun hk herr => ?_
    cases hk
    exact .inr ⟨.inl herr, rfl, _, .inl ⟨rfl, by simp, rfl⟩⟩
  | crcInit =>
    refine running (by simp) h fun hk herr => ?_
    cases hk
    exact .inr ⟨.inl herr, rfl, _, .inr (.inl ⟨rfl, _, rfl⟩)⟩
  | refByte b =>
    refine running (by simp) h fun hk herr => ?_
    cases hk
    exact .inr ⟨.inl herr, rfl, _, .inr (.inl ⟨rfl, _, rfl⟩)⟩
  | fastByte b =>
    refine running (by simp) h fun hk herr => ?_
    rcases requireTable_cases s (withEntry s (tableIndex s.params (remOf s) b) fun e =>
        .next (ok 0 (setRem s (fastRem e (remOf s))))) with ⟨htv, hc⟩ | ⟨htv, hc⟩ <;> rw [hc] at hk
    · cases hk
      exact .inl ⟨herr, .tableNotBuilt, by simp [ownFault, htv], rfl⟩
    · rcases withEntry_cases s (tableIndex s.params (remOf s) b) (fun e =>
          .next (ok 0 (setRem s (fastRem e (remOf s))))) with ⟨e, _, hw⟩ | ⟨_, hw⟩ <;> rw [hw] at hk <;> cases hk
      exact .inr ⟨.inl herr, by simp [ownFault, htv], _, .inr (.inl ⟨rfl, _, rfl⟩)⟩
  | crcFinal =>
    refine running (by simp) h fun hk herr => ?_
    cases hk
    exact .inr ⟨.inl herr, rfl, _, .inl ⟨rfl, by simp, rfl⟩⟩
  | crcCheck e =>
    refine running (by simp) h fun hk herr => ?_
    cases hk
    exact .inr ⟨.inl herr, rfl, _, .inl ⟨rfl, by simp, rfl⟩⟩
  | buildTable =>
    refine running (by simp) h fun hk herr => ?_
    cases hk
    exact .inr ⟨.inl herr, rfl, _, .inr (.inr ⟨rfl, rfl⟩)⟩
  | tblRd idx =>
    refine running (by simp) h fun hk herr => ?_
    rcases requireTable_cases s (withEntry s idx fun e => .next (ok (zext64 e) s)) with ⟨htv, hc⟩ | ⟨htv, hc⟩ <;>
      rw [hc] at hk
    · cases hk
      exact .inl ⟨herr, .tableNotBuilt, by simp [ownFault, htv], rfl⟩
    · rcases withEntry_cases s idx (fun e => .next (ok (zext64 e) s)) with ⟨e, _, hw⟩ | ⟨_, hw⟩ <;>
        rw [hw] at hk <;> cases hk
      exact .inr ⟨.inl herr, by simp [ownFault, htv], _, .inl ⟨rfl, by simp, rfl⟩⟩
  | rdStatus =>
    cases h
    exact .inr (.inr ⟨.inr rfl, rfl, _, .inl ⟨rfl, by simp, rfl⟩⟩)

/-- A step that answers a next state was idle, a reset, an executed command, or a rejected illegal word; the
instance is legal. -/
theorem step_next_cases {s t : State} (h : step s = .next t) :
    s.params.legal = true ∧
    ((s.events = [] ∧ t = s) ∨
      (∃ rest, s.events = .reset :: rest ∧ t = applyReset { s with events := rest }) ∨
      (∃ c rest i, s.events = .command c :: rest ∧ decode c.cw c.opd = .ok i ∧
        exec i { s with events := rest } = .next t) ∨
      (∃ c rest e, s.events = .command c :: rest ∧ decode c.cw c.opd = .error e ∧
        rejectIllegal { s with events := rest } = .next t)) := by
  rcases requireLegal_cases s (match takeEvent s with
    | none => .next s
    | some (.reset, s') => .next (applyReset s')
    | some (.command c, s') =>
      match decode c.cw c.opd with
      | .ok i => exec i s'
      | .error _ => rejectIllegal s') with ⟨hl, hk⟩ | ⟨_, hk⟩
  · refine ⟨hl, ?_⟩
    have h' := hk.symm.trans h
    rcases takeEvent_cases s with ⟨he, ht⟩ | ⟨e, rest, he, ht⟩ <;> rw [ht] at h'
    · cases h'
      exact .inl ⟨he, rfl⟩
    · cases e with
      | reset =>
        cases h'
        exact .inr (.inl ⟨rest, he, rfl⟩)
      | command c =>
        cases hd : decode c.cw c.opd with
        | ok i => exact .inr (.inr (.inl ⟨c, rest, i, he, hd, by simpa [hd] using h'⟩))
        | error e => exact .inr (.inr (.inr ⟨c, rest, e, he, hd, by simpa [hd] using h'⟩))
  · cases hk.symm.trans h

end Sys2Proof.Machine
end

