-- ==== Sys2Proof/Laws/Params.lean ====
section
/-! SUPPORT. What a legal parameter set gives, and W-bit values held in 64 bits. -/

namespace Sys2Proof.Machine

variable {P : Params}

/-- The clauses of legality (00_scope.md R8). -/
theorem legal_iff (P : Params) :
    P.legal = true ↔ (P.W = 8 ∨ P.W = 16 ∨ P.W = 32) ∧ P.POLY.toNat < 2 ^ P.W ∧
      P.INIT.toNat < 2 ^ P.W ∧ P.XOROUT.toNat < 2 ^ P.W ∧ P.POLY.getLsbD 0 = true := by
  simp [Params.legal, Params.widthAdmitted, Params.fits, and_assoc, or_assoc]

theorem legal_width_ge (h : P.legal = true) : 8 ≤ P.W := by
  have := ((legal_iff P).1 h).1
  omega

theorem legal_width_le (h : P.legal = true) : P.W ≤ 64 := by
  have := ((legal_iff P).1 h).1
  omega

/-- A W-bit value survives being held in 64 bits. -/
theorem setWidth_zext64 {w : Nat} (h : w ≤ 64) (r : BitVec w) : (zext64 r).setWidth w = r := by
  simp [zext64, BitVec.setWidth_setWidth_of_le r h]

/-- A W-bit value held in 64 bits is below `2^W`. -/
theorem fits_zext64 (r : BitVec P.W) : P.fits (zext64 r) = true := by
  simp only [Params.fits, zext64, BitVec.toNat_setWidth, decide_eq_true_eq]
  exact Nat.lt_of_le_of_lt (Nat.mod_le _ _) r.isLt

end Sys2Proof.Machine
end

