-- ==== Sys2Proof/Laws/Memory.lean ====
section
/-! SUPPORT. The table memory: reading after writing, and that every memory operation keeps the canonical form and the entry width. -/

namespace Sys2Proof.Machine

theorem lookupCell_insertCell_same (k : Nat) (v : Word) (m : Memory) :
    lookupCell k (insertCell k v m) = some v := by
  induction m with
  | nil => simp [insertCell, lookupCell]
  | cons c m ih =>
    obtain ⟨j, u⟩ := c
    by_cases h₁ : k < j
    · simp [insertCell, h₁, lookupCell]
    · by_cases h₂ : k = j
      · simp [insertCell, h₂, lookupCell]
      · simp [insertCell, h₁, h₂, lookupCell, Ne.symm h₂, ih]

theorem lookupCell_insertCell_other {k l : Nat} (h : l ≠ k) (v : Word) (m : Memory) :
    lookupCell l (insertCell k v m) = lookupCell l m := by
  induction m with
  | nil => simp [insertCell, lookupCell, Ne.symm h]
  | cons c m ih =>
    obtain ⟨j, u⟩ := c
    by_cases h₁ : k < j
    · simp [insertCell, h₁, lookupCell, Ne.symm h]
    · by_cases h₂ : k = j
      · subst h₂
        simp [insertCell, lookupCell, Ne.symm h]
      · simp [insertCell, h₁, h₂, lookupCell, ih]

/-- A read after a write to the same index gives the value written (20_memory.md R50). -/
theorem tblRead_tblWrite_same (m : Memory) (i : Byte) (v : Word) :
    tblRead (tblWrite m i v) i = some v :=
  lookupCell_insertCell_same i.toNat v m

/-- A write changes no other entry (20_memory.md R50). -/
theorem tblRead_tblWrite_other {i j : Byte} (h : j ≠ i) (m : Memory) (v : Word) :
    tblRead (tblWrite m i v) j = tblRead m j :=
  lookupCell_insertCell_other (fun e => h (BitVec.eq_of_toNat_eq e)) v m

theorem risingFrom_insertCell {low k : Nat} (hk : low ≤ k) (hk' : k < tableSize) (v : Word) {m : Memory}
    (h : risingFrom low m = true) : risingFrom low (insertCell k v m) = true := by
  induction m generalizing low with
  | nil => simp [insertCell, risingFrom, hk, hk']
  | cons c m ih =>
    obtain ⟨j, u⟩ := c
    simp only [risingFrom, Bool.and_eq_true, decide_eq_true_eq] at h
    obtain ⟨⟨h₁, h₂⟩, h₃⟩ := h
    by_cases hlt : k < j
    · simp only [insertCell, hlt, if_true, risingFrom, Bool.and_eq_true, decide_eq_true_eq]
      exact ⟨⟨hk, hk'⟩, ⟨hlt, h₂⟩, h₃⟩
    · by_cases heq : k = j
      · subst heq
        simp [insertCell, risingFrom, hk, hk', h₃]
      · simp only [insertCell, hlt, heq, if_false, risingFrom, Bool.and_eq_true, decide_eq_true_eq]
        exact ⟨⟨h₁, h₂⟩, ih (by omega) h₃⟩

/-- A write keeps the canonical form. -/
theorem tblWrite_keeps_wf (i : Byte) (v : Word) {m : Memory} (h : m.wf = true) :
    (tblWrite m i v).wf = true :=
  risingFrom_insertCell (Nat.zero_le _) i.isLt v h

/-- The empty memory, the one at reset, has the canonical form. -/
theorem reset_memory_wf (P : Params) : (State.resetOf P).table.wf = true := rfl

theorem entriesFit_insertCell {P : Params} (k : Nat) {v : Word} (hv : P.fits v = true) {m : Memory}
    (h : entriesFit P m = true) : entriesFit P (insertCell k v m) = true := by
  induction m with
  | nil => simp [insertCell, entriesFit, hv]
  | cons c m ih =>
    obtain ⟨j, u⟩ := c
    simp only [entriesFit, List.all_cons, Bool.and_eq_true] at h ih ⊢
    by_cases h₁ : k < j
    · simp [insertCell, h₁, hv, h.1, h.2]
    · by_cases h₂ : k = j
      · simp [insertCell, h₂, hv, h.2]
      · simp [insertCell, h₁, h₂, h.1, ih h.2]

/-- A write of a W-bit value keeps every entry a W-bit value. -/
theorem tblWrite_keeps_fit {P : Params} (i : Byte) {v : Word} (hv : P.fits v = true) {m : Memory}
    (h : entriesFit P m = true) : entriesFit P (tblWrite m i v) = true :=
  entriesFit_insertCell i.toNat hv h

/-- Two memories of the canonical form that read alike at every index are the same data. -/
theorem risingFrom_ext {low : Nat} {m₁ m₂ : Memory} (h₁ : risingFrom low m₁ = true)
    (h₂ : risingFrom low m₂ = true) (h : ∀ k, lookupCell k m₁ = lookupCell k m₂) : m₁ = m₂ := by
  have below : ∀ {low k : Nat} {m : Memory}, risingFrom low m = true → k < low → lookupCell k m = none := by
    intro low k m hm hk
    induction m generalizing low with
    | nil => rfl
    | cons c m ih =>
      obtain ⟨j, u⟩ := c
      simp only [risingFrom, Bool.and_eq_true, decide_eq_true_eq] at hm
      have hj : j ≠ k := by omega
      simp only [lookupCell, hj, if_false]
      exact ih hm.2 (by omega)
  induction m₁ generalizing low m₂ with
  | nil =>
    cases m₂ with
    | nil => rfl
    | cons c m₂ => simpa [lookupCell] using h c.1
  | cons c m₁ ih =>
    obtain ⟨j, u⟩ := c
    cases m₂ with
    | nil => simpa [lookupCell] using h j
    | cons d m₂ =>
      obtain ⟨l, w⟩ := d
      have g₁ := h₁
      have g₂ := h₂
      simp only [risingFrom, Bool.and_eq_true, decide_eq_true_eq] at g₁ g₂
      have hjl : j = l := by
        rcases Nat.lt_trichotomy j l with hlt | heq | hgt
        · have hb : lookupCell j m₂ = none := below g₂.2 (by omega)
          have := h j
          simp [lookupCell, Nat.ne_of_gt hlt, hb] at this
        · exact heq
        · have hb : lookupCell l m₁ = none := below g₁.2 (by omega)
          have := h l
          simp [lookupCell, Nat.ne_of_gt hgt, hb] at this
      subst hjl
      have huw : u = w := by simpa [lookupCell] using h j
      subst huw
      rw [ih g₁.2 g₂.2 fun k => ?_]
      by_cases hk : j = k
      · subst hk
        rw [below g₁.2 (by omega), below g₂.2 (by omega)]
      · simpa [lookupCell, hk] using h k

/-- In the canonical form no index of 256 or more is listed. -/
theorem lookupCell_high {low k : Nat} {m : Memory} (hm : risingFrom low m = true) (hk : tableSize ≤ k) :
    lookupCell k m = none := by
  induction m generalizing low with
  | nil => rfl
  | cons c m ih =>
    obtain ⟨j, u⟩ := c
    simp only [risingFrom, Bool.and_eq_true, decide_eq_true_eq] at hm
    have hj : j ≠ k := by omega
    simp only [lookupCell, hj, if_false]
    exact ih hm.2

/-- Two memories of the canonical form with the same entries are the same data. -/
theorem memory_ext {m₁ m₂ : Memory} (h₁ : m₁.wf = true) (h₂ : m₂.wf = true)
    (h : ∀ d : Byte, tblRead m₁ d = tblRead m₂ d) : m₁ = m₂ := by
  refine risingFrom_ext h₁ h₂ fun k => ?_
  by_cases hk : k < 256
  · have e : (BitVec.ofNat 8 k).toNat = k := by
      rw [BitVec.toNat_ofNat]
      exact Nat.mod_eq_of_lt hk
    have := h (BitVec.ofNat 8 k)
    rwa [tblRead, tblRead, e] at this
  · rw [lookupCell_high h₁ (Nat.le_of_not_lt hk), lookupCell_high h₂ (Nat.le_of_not_lt hk)]

/-- The builder's loop, one pass more. -/
theorem buildFirst_succ (P : Params) (m : Memory) (n : Nat) :
    buildFirst P m (n + 1) = buildEntry P (buildFirst P m n) n := by
  simp [buildFirst, List.range_succ]

/-- What the builder's first `n` passes leave: `tbl` below `n`, the old entries from `n` on. -/
theorem tblRead_buildFirst (P : Params) (m : Memory) {n : Nat} (hn : n ≤ 256) (d : Byte) :
    tblRead (buildFirst P m n) d =
      if d.toNat < n then some (zext64 (tbl P d)) else tblRead m d := by
  induction n with
  | zero => simp [buildFirst]
  | succ n ih =>
    rw [buildFirst_succ, buildEntry]
    by_cases hd : d = BitVec.ofNat 8 n
    · have : d.toNat = n := by
        rw [hd, BitVec.toNat_ofNat]
        exact Nat.mod_eq_of_lt (by omega)
      rw [← hd, tblRead_tblWrite_same]
      simp [this]
    · have : d.toNat ≠ n := fun e => hd (by rw [← e, BitVec.ofNat_toNat, BitVec.setWidth_eq])
      rw [tblRead_tblWrite_other hd, ih (by omega)]
      have : d.toNat < n + 1 ↔ d.toNat < n := by omega
      simp [this]

/-- The builder's passes keep the canonical form. -/
theorem buildFirst_keeps_wf (P : Params) {m : Memory} (h : m.wf = true) (n : Nat) :
    (buildFirst P m n).wf = true := by
  induction n with
  | zero => simpa [buildFirst] using h
  | succ n ih =>
    rw [buildFirst_succ]
    exact tblWrite_keeps_wf _ _ ih

/-- The builder's passes keep every entry a W-bit value. -/
theorem buildFirst_keeps_fit (P : Params) {m : Memory} (h : entriesFit P m = true) (n : Nat) :
    entriesFit P (buildFirst P m n) = true := by
  induction n with
  | zero => simpa [buildFirst] using h
  | succ n ih =>
    rw [buildFirst_succ]
    exact tblWrite_keeps_fit _ (fits_zext64 _) ih

/-- What the whole build leaves: every entry is `tbl`, whatever was there before (42_table_rom.md R120). -/
theorem tblRead_buildAll (P : Params) (m : Memory) (d : Byte) :
    tblRead (buildAll P m) d = some (zext64 (tbl P d)) := by
  have hd : d.toNat < 256 := d.isLt
  have h := tblRead_buildFirst P m (Nat.le_refl 256) d
  rw [if_pos hd] at h
  unfold buildAll
  exact h

/-- The build keeps the canonical form. -/
theorem buildAll_keeps_wf (P : Params) {m : Memory} (h : m.wf = true) : (buildAll P m).wf = true := by
  unfold buildAll
  exact buildFirst_keeps_wf P h tableSize

/-- The build keeps every entry a W-bit value. -/
theorem buildAll_keeps_fit (P : Params) {m : Memory} (h : entriesFit P m = true) :
    entriesFit P (buildAll P m) = true := by
  unfold buildAll
  exact buildFirst_keeps_fit P h tableSize

end Sys2Proof.Machine
end

