-- ==== Sys2Proof/Laws/PerInstr.lean ====
section
/-! SUPPORT. For every instruction: its encoded word selects the row of the opcode map it belongs to (30_encoding.md R74). -/

namespace Sys2Proof.Laws.EncodeSelectsRow

/-- The command word of the instruction selects its own row. -/
def Statement (i : Instr) : Prop :=
  selects (encode i).cw (rowOf i) = true

/-- A word `op, b` selects the row of opcode `op` with the mask 0xFF00. -/
theorem selects_opcode (op b : Byte) : selects (cmdWord op b) (cmdWord op 0, 0xFF00) = true := by
  simp only [selects, cmdWord_and_opcode_mask, beq_self_eq_true]

theorem reflect (n : Byte) (v : Word) : Statement (.reflect n v) :=
  selects_opcode 0x01 n

theorem parity (b : Byte) : Statement (.parity b) :=
  selects_opcode 0x02 b

theorem crcInit : Statement .crcInit := by
  unfold Statement; decide

theorem refByte (b : Byte) : Statement (.refByte b) :=
  selects_opcode 0x11 b

theorem fastByte (b : Byte) : Statement (.fastByte b) :=
  selects_opcode 0x12 b

theorem crcFinal : Statement .crcFinal := by
  unfold Statement; decide

theorem crcCheck (e : Word) : Statement (.crcCheck e) := by
  show selects (cmdWord 0x14 0) (0x1400, 0xFFFF) = true
  decide

theorem buildTable : Statement .buildTable := by
  unfold Statement; decide

theorem tblRd (i : Byte) : Statement (.tblRd i) :=
  selects_opcode 0x21 i

theorem rdStatus : Statement .rdStatus := by
  unfold Statement; decide

end Sys2Proof.Laws.EncodeSelectsRow
end

