-- ==== Sys2Proof/Laws/Run.lean ====
section
/-! SUPPORT. Running the machine step by step, and what issuing a command sequence puts into the queue. -/

namespace Sys2Proof.Machine

theorem steps_zero (s : State) : steps 0 s = .next s := rfl

/-- One step that answers a next state, and the run goes on from there. -/
theorem steps_succ {n : Nat} {s t : State} (h : step s = .next t) : steps (n + 1) s = steps n t := by
  simp only [steps, h]

/-- A run cut in two. -/
theorem steps_add {m n : Nat} {s t : State} (h : steps m s = .next t) : steps (m + n) s = steps n t := by
  induction m generalizing s with
  | zero =>
    cases h
    rw [Nat.zero_add]
  | succ m ih =>
    rw [Nat.succ_add]
    simp only [steps] at h ⊢
    cases hs : step s with
    | next u =>
      rw [hs] at h
      exact ih h
    | fault r =>
      rw [hs] at h
      cases h
    | refused r =>
      rw [hs] at h
      cases h

/-- `steps` is the host's run of the machine. -/
theorem run_core_eq_steps (n : Nat) (s : State) : Host.Core.run core n s = steps n s := by
  induction n generalizing s with
  | zero => rfl
  | succ n ih =>
    cases h : step s with
    | next t =>
      have h' : core.step s = .next t := h
      simp only [Host.Core.run, h', steps, h]
      exact ih t
    | fault r =>
      have h' : core.step s = .fault r := h
      simp only [Host.Core.run, h', steps, h]
      rfl
    | refused r =>
      have h' : core.step s = .refused r := h
      simp only [Host.Core.run, h', steps, h]
      rfl

@[simp] theorem issue_params (is : List Instr) (s : State) : (issue is s).params = s.params := rfl
@[simp] theorem issue_rem (is : List Instr) (s : State) : (issue is s).rem = s.rem := rfl
@[simp] theorem issue_table (is : List Instr) (s : State) : (issue is s).table = s.table := rfl
@[simp] theorem issue_status (is : List Instr) (s : State) : (issue is s).status = s.status := rfl
@[simp] theorem issue_responses (is : List Instr) (s : State) : (issue is s).responses = s.responses := rfl

theorem issue_nil (s : State) : issue [] s = s := rfl

/-- The first command of a sequence is the oldest event, the others follow it. -/
theorem issue_cons_events (i : Instr) (is : List Instr) (s : State) :
    (issue (i :: is) s).events = .command (encode i) :: (issue is s).events := rfl

/-- Issuing a sequence is issuing its first command before the others. -/
theorem issue_cons (i : Instr) (is : List Instr) (s : State) :
    issue (i :: is) s = issueFirst (encode i) (issue is s) := rfl

/-- With the first command taken from the queue, the others are issued. -/
theorem issue_cons_taken (i : Instr) (is : List Instr) (s : State) :
    { issue (i :: is) s with events := (issue is s).events } = issue is s := rfl

end Sys2Proof.Machine
end

