-- ==== Sys2Proof/Tests/Slice0.lean ====
section
/-! SUPPORT. Tests of the model against the spec's own vectors (95_test_vectors.md), smoke tests of the checks, and a witness for each statement's hypotheses. -/

namespace Sys2Proof.Tests

open Sys2Proof.Machine

/-! ## Helpers -/

/-- The response a command gave. -/
def answer (o : Host.Outcome State Fault Refusal) : Option (Byte × Word) :=
  match o with
  | .next t => t.responses.head?.map fun r => (r.rc, r.rdata)
  | .fault _ => none
  | .refused _ => none

/-- `REM` and `STATUS` after a command. -/
def regsAfter (o : Host.Outcome State Fault Refusal) : Option (Word × Byte) :=
  match o with
  | .next t => some (t.rem, statusByte t.status)
  | .fault _ => none
  | .refused _ => none

/-- The reset state of an instance with `REM` set. -/
def withRem (P : Params) (r : Word) : State :=
  { State.resetOf P with rem := r }

/-- The CRC-8 instance halted by TableNotBuilt (`STATUS = 0x22`). -/
def halted : State :=
  { State.reset with status := { tv := false, err := true, ecode := 2 } }

/-- An instance with its table built. -/
def built (P : Params) : State :=
  { State.resetOf P with table := buildAll P [], status := { tv := true, err := false, ecode := 0 } }

/-- A state in which the host has one command pending. -/
def pending (s : State) (cw : CmdWord) (opd : Word) : State :=
  { s with events := [.command ⟨cw, opd⟩] }

/-! ## Legality: an ill-formed parameter set for each clause of R8, refused by it -/

theorem test_legal_presets :
    Params.crc8.legal = true ∧ Params.crc16Ccitt.legal = true ∧ Params.crc16.legal = true ∧
      Params.crc32.legal = true := by decide

theorem test_illegal_width :
    ({ Params.crc8 with W := 12 } : Params).widthAdmitted = false ∧
      ({ Params.crc8 with W := 12 } : Params).legal = false := by decide

theorem test_illegal_poly :
    ({ Params.crc8 with POLY := 0x131 } : Params).fits 0x131 = false ∧
      ({ Params.crc8 with POLY := 0x131 } : Params).legal = false := by decide

theorem test_illegal_init : ({ Params.crc8 with INIT := 0x100 } : Params).legal = false := by decide

theorem test_illegal_xorout : ({ Params.crc8 with XOROUT := 0x100 } : Params).legal = false := by decide

theorem test_illegal_poly_bit0 : ({ Params.crc8 with POLY := 0x30 } : Params).legal = false := by decide

/-! ## Decoding: words written out bit by bit from 30_encoding.md R74, and illegal words of 95_test_vectors.md section 2.9 -/

theorem test_decode_reflect : decode 0b0000000101000001 0x1 = .ok (.reflect 65 0x1) := by decide

theorem test_decode_parity : decode 0b0000001010000000 0 = .ok (.parity 0x80) := by decide

theorem test_decode_crcInit : decode 0b0001000000000000 0xDEADBEEF = .ok .crcInit := by decide

theorem test_decode_refByte : decode 0b0001000111101111 0 = .ok (.refByte 0xEF) := by decide

theorem test_decode_fastByte : decode 0b0001001000110001 0 = .ok (.fastByte 0x31) := by decide

theorem test_decode_crcFinal : decode 0b0001001100000000 0 = .ok .crcFinal := by decide

theorem test_decode_crcCheck : decode 0b0001010000000000 0x92 = .ok (.crcCheck 0x92) := by decide

theorem test_decode_buildTable : decode 0b0010000000000000 0 = .ok .buildTable := by decide

theorem test_decode_tblRd : decode 0b0010000111111111 0 = .ok (.tblRd 0xFF) := by decide

theorem test_decode_rdStatus : decode 0b0011000000000000 0 = .ok .rdStatus := by decide

theorem test_decode_illegal :
    [0x0000, 0xFFFF, 0x1001, 0x1301, 0x1401, 0x20FF, 0x3001, 0x1500, 0x0300, 0x2200, 0x3100].all
      (fun n => (decodeTableWord 16 n).isNone) = true := by decide

/-- The assembler's examples of R79: `REF_BYTE 0xBE` is 0x11BE, `REFLECT 8, 0x31` is 0x0108 with 0x31 on `OPD`. -/
theorem test_assembler :
    assembleText "REF_BYTE 0xBE ; first byte\n\n  REFLECT 8, 0x31\nCRC_INIT".toList =
      some [⟨0x11BE, 0⟩, ⟨0x0108, 0x31⟩, ⟨0x1000, 0⟩] ∧
    assembleLine "REF_BYTE 256".toList = none ∧ assembleLine "NOP".toList = none := by decide +kernel

/-! ## One step of each command, from 95_test_vectors.md -/

/-- Section 2.1: `n` = 8 and the full width. -/
theorem test_reflect :
    answer (exec (.reflect 8 0x31) State.reset) = some (0x00, 0x8C) ∧
    answer (exec (.reflect 64 0x0123456789ABCDEF) State.reset) = some (0x00, 0xF7B3D591E6A2C480) := by decide +kernel

/-- Section 2.1: bits above `n` ignored, `n` = 0, and the first count that faults. -/
theorem test_reflect_corners :
    answer (exec (.reflect 4 0xFFF1) State.reset) = some (0x00, 0x8) ∧
    answer (exec (.reflect 0 0xFFFF) State.reset) = some (0x00, 0x0) ∧
    answer (exec (.reflect 65 0x1) State.reset) = some (0x03, 0x0) ∧
    regsAfter (exec (.reflect 65 0x1) State.reset) = some (0xFF, 0x32) := by decide

/-- Section 1.4: the document's six vectors. -/
theorem test_parity :
    [0x01, 0x80, 0x07, 0x00, 0x03, 0xFF].map (fun b => answer (exec (.parity b) State.reset)) =
      [some (0, 1), some (0, 1), some (0, 1), some (0, 0), some (0, 0), some (0, 0)] := by decide

/-- R106's example. -/
theorem test_crcInit : regsAfter (exec .crcInit (withRem .crc8 0x0C)) = some (0xFF, 0x00) := by decide

/-- Section 2.2 for CRC-8, section 2.6 for a width of 16 and for reflected input. -/
theorem test_refByte :
    regsAfter (exec (.refByte 0xBE) State.reset) = some (0x0C, 0x00) ∧
    regsAfter (exec (.refByte 0x41) (withRem .crc16Ccitt 0xFFFF)) = some (0xB915, 0x00) ∧
    regsAfter (exec (.refByte 0x41) (withRem .crc16 0x0000)) = some (0x030C, 0x00) := by decide

/-- Section 2.5 for CRC-8, section 2.6 for the shift term of a width of 32. -/
theorem test_fastByte :
    regsAfter (exec (.fastByte 0xBE) (built .crc8)) = some (0x0C, 0x01) ∧
    regsAfter (exec (.fastByte 0x31) (built .crc32)) = some (0x1208C43E, 0x01) := by decide +kernel

/-- Program P4, line 2. -/
theorem test_fastByte_not_built :
    answer (exec (.fastByte 0x31) State.reset) = some (0x02, 0) ∧
    regsAfter (exec (.fastByte 0x31) State.reset) = some (0xFF, 0x22) := by decide

/-- Section 2.6: reflection before the final XOR. -/
theorem test_crcFinal :
    answer (exec .crcFinal (withRem .crc8 0x92)) = some (0x00, 0x92) ∧
    answer (exec .crcFinal (withRem .crc16 0x030C)) = some (0x00, 0x30C0) ∧
    answer (exec .crcFinal (withRem .crc32 0x9B63D02C)) = some (0x00, 0xCBF43926) := by decide +kernel

/-- Section 2.8: all 64 bits are compared. -/
theorem test_crcCheck :
    [0x92, 0x93, 0x192, 0xFFFFFFFFFFFFFF92].map (fun e => answer (exec (.crcCheck e) (withRem .crc8 0x92))) =
      [some (0, 1), some (0, 0), some (0, 0), some (0, 0)] := by decide

/-- Section 2.4: entries of the built table, and what stays. -/
theorem test_buildTable :
    (match exec .buildTable State.reset with
      | .next t => [0x00, 0x01, 0x41, 0xE3, 0xFF].map (tblRead t.table)
      | .fault _ => []
      | .refused _ => []) = [some 0x00, some 0x31, some 0x0C, some 0x92, some 0xAC] ∧
    regsAfter (exec .buildTable State.reset) = some (0xFF, 0x01) := by decide +kernel

/-- Section 2.4. -/
theorem test_tblRd :
    answer (exec (.tblRd 0xE3) (built .crc8)) = some (0x00, 0x92) ∧
    answer (exec (.tblRd 0xE3) State.reset) = some (0x02, 0) := by decide +kernel

/-- Program P4, lines 3 and 7, and section 2.9. -/
theorem test_rdStatus :
    answer (exec .rdStatus halted) = some (0x00, 0x22) ∧
    answer (exec .rdStatus State.reset) = some (0x00, 0x00) := by decide

/-- Program P4, line 4, and section 2.9: halted is answered before an illegal word is looked at. -/
theorem test_halted :
    answer (step (pending halted 0x1000 0)) = some (0x04, 0) ∧
    answer (step (pending halted 0x0000 0)) = some (0x04, 0) ∧
    answer (step (pending State.reset 0x0000 0)) = some (0x01, 0) ∧
    regsAfter (step (pending State.reset 0xFFFF 0)) = some (0xFF, 0x12) := by decide

/-! ## Witnesses: a concrete state and operands that meet each statement's hypotheses -/

/-- The invariants do not depend on what the host has pending. -/
theorem inv_events {s : State} (h : Inv s) (events : List Event) : Inv { s with events := events } :=
  ⟨h.legal, h.remFits, h.tableWf, h.tableFits, h.tableMatches, h.errCode, h.codeLegal, h.notBuilt⟩

theorem inv_reset : Inv State.reset :=
  ⟨by decide, by decide, by decide, by decide, (fun h => by cases h), by decide, by decide, (fun h => by cases h)⟩

theorem inv_halted : Inv halted :=
  ⟨by decide, by decide, by decide, by decide, (fun h => by cases h), by decide, by decide, fun _ => rfl⟩

theorem inv_built : Inv (built .crc8) :=
  ⟨by decide, by decide, buildAll_keeps_wf _ rfl, buildAll_keeps_fit _ rfl,
    fun _ d => tblRead_buildAll .crc8 [] d, by decide, by decide, (fun h => by cases h)⟩

theorem built_entries (d : Byte) : tblRead (built .crc8).table d = some (zext64 (tbl Params.crc8 d)) :=
  tblRead_buildAll .crc8 [] d

theorem witness_EncodeAfterDecode : decode 0x1400 0x92 = .ok (.crcCheck 0x92) ∧ decode 0x1000 7 = .ok .crcInit := by
  decide

theorem witness_StepRunsDecoded :
    State.reset.params.legal = true ∧ (pending State.reset 0x1000 0).events = .command ⟨0x1000, 0⟩ :: [] ∧
      decode 0x1000 0 = .ok .crcInit := by decide

theorem witness_IdleStepChangesNothing : State.reset.params.legal = true ∧ State.reset.events = [] := by decide

theorem witness_IllegalInstanceRefused : (withRem { Params.crc8 with W := 12 } 0).params.legal = false := by decide

theorem witness_ResetGivesResetState :
    halted.params.legal = true ∧ { halted with events := [.reset] }.events = .reset :: [] := by decide

theorem witness_HaltedBlockAnswersHalted_command :
    (pending halted 0x2000 0).params.legal = true ∧ (pending halted 0x2000 0).status.err = true ∧
      (pending halted 0x2000 0).events = .command ⟨0x2000, 0⟩ :: [] ∧ (0x2000 : CmdWord) ≠ 0x3000 := by decide

theorem witness_HaltedBlockAnswersHalted_status :
    (pending halted 0x3000 0).params.legal = true ∧ (pending halted 0x3000 0).status.err = true ∧
      (pending halted 0x3000 0).events = .command ⟨0x3000, 0⟩ :: [] := by decide

theorem witness_HaltedBlockAnswersHalted_reset :
    ∃ t, halted.status.err = true ∧ step { halted with events := [.reset] } = .next t ∧ t.status.err = false :=
  ⟨_, rfl, rfl, rfl⟩

theorem witness_ChecksInOrder_status :
    State.reset.params.legal = true ∧ (pending State.reset 0x3000 0).events = .command ⟨0x3000, 0⟩ :: [] := by decide

theorem witness_ChecksInOrder_halted :
    halted.params.legal = true ∧ (pending halted 0x3001 0).events = .command ⟨0x3001, 0⟩ :: [] ∧
      (0x3001 : CmdWord) ≠ 0x3000 ∧ halted.status.err = true := by decide

theorem witness_ChecksInOrder_illegal :
    ∃ e, (pending State.reset 0x3001 0).events = .command ⟨0x3001, 0⟩ :: [] ∧ (0x3001 : CmdWord) ≠ 0x3000 ∧
      State.reset.status.err = false ∧ decode 0x3001 0 = .error e :=
  ⟨.nonzeroImm8 0x30 0x01, by decide⟩

theorem witness_ChecksInOrder_precondition :
    (0x0141 : CmdWord) ≠ 0x3000 ∧ State.reset.status.err = false ∧ decode 0x0141 1 = .ok (.reflect 65 1) ∧
      ownFault (pending State.reset 0x0141 1) (.reflect 65 1) = some .reflectRange := by decide

theorem witness_ChecksInOrder_executes :
    (0x0140 : CmdWord) ≠ 0x3000 ∧ State.reset.status.err = false ∧ decode 0x0140 1 = .ok (.reflect 64 1) ∧
      ownFault (pending State.reset 0x0140 1) (.reflect 64 1) = none ∧ Inv (pending State.reset 0x0140 1) :=
  ⟨by decide, by decide, by decide, by decide, inv_events inv_reset _⟩

theorem witness_RaiseLatchesAndResponds :
    ∃ t, State.reset.status.err = false ∧ exec (.fastByte 0x31) State.reset = .next t ∧ t.status.err = true :=
  ⟨_, rfl, rfl, rfl⟩

theorem witness_RaiseLatchesAndResponds_halted :
    ∃ t, halted.status.err = true ∧ exec (.fastByte 0x31) halted = .next t :=
  ⟨_, rfl, rfl⟩

theorem witness_IllegalCommandRaised :
    State.reset.params.legal = true ∧ State.reset.status.err = false ∧ State.reset.status.ecode = 0 ∧
      (pending State.reset 0x0000 0).events = .command ⟨0x0000, 0⟩ :: [] ∧
      ∀ r ∈ opcodeRows, selects 0x0000 r = false :=
  ⟨by decide, rfl, rfl, rfl, by simp [opcodeRows, selects]⟩

theorem witness_IllegalCommandRaised_only :
    ∃ t, State.reset.status.ecode = 0 ∧ step (pending State.reset 0x1001 0) = .next t ∧ t.status.ecode = 1 :=
  ⟨_, rfl, rfl, rfl⟩

theorem witness_commands_halted : halted.params.legal = true ∧ halted.status.err = true := by decide

theorem witness_commands_running : State.reset.params.legal = true ∧ State.reset.status.err = false := by decide

theorem witness_ReflectCommand_range :
    State.reset.status.err = false ∧ 64 < (65 : Byte).toNat ∧ 64 < (255 : Byte).toNat := by decide

theorem witness_ReflectCommand_executes :
    State.reset.status.err = false ∧ (0 : Byte).toNat ≤ 64 ∧ (64 : Byte).toNat ≤ 64 ∧ 63 < (64 : Byte).toNat := by
  decide

theorem witness_CrcCheckCommand_high_bit :
    State.reset.params.legal = true ∧ State.reset.status.err = false ∧
      ∃ j, State.reset.params.W ≤ j ∧ (0x192 : Word).getLsbD j = true :=
  ⟨by decide, by decide, 8, by decide, by decide⟩

theorem witness_TblRdCommand_not_built :
    State.reset.params.legal = true ∧ State.reset.status.err = false ∧ State.reset.status.tv = false := by decide

theorem witness_TblRdCommand_executes :
    ∃ e : BitVec (built .crc8).params.W, (built .crc8).params.legal = true ∧ (built .crc8).status.err = false ∧
      (built .crc8).status.tv = true ∧ tblRead (built .crc8).table 0xFF = some (zext64 e) :=
  ⟨tbl Params.crc8 0xFF, by decide, rfl, rfl, built_entries 0xFF⟩

theorem witness_FastByteCommand_executes :
    ∃ e : BitVec (built .crc8).params.W, (built .crc8).params.legal = true ∧ (built .crc8).status.err = false ∧
      (built .crc8).status.tv = true ∧
      (0x41 : Byte).toNat = (0xBE : Byte).toNat ^^^ ((remOf (built .crc8)).toNat >>> ((built .crc8).params.W - 8)) ∧
      tblRead (built .crc8).table 0x41 = some (zext64 e) :=
  ⟨tbl Params.crc8 0x41, by decide, rfl, rfl, by decide, built_entries 0x41⟩

theorem witness_UnwrittenEntryStops :
    { State.reset with status := (built .crc8).status }.status.err = false ∧
      { State.reset with status := (built .crc8).status }.status.tv = true ∧
      tblRead State.reset.table 0xFF = none ∧
      tblRead State.reset.table (tableIndex State.reset.params (remOf State.reset) 0) = none :=
  ⟨rfl, rfl, rfl, rfl⟩

theorem witness_frames :
    (∃ t, exec (.parity 1) State.reset = .next t ∧ writesRem (.parity 1) = false ∧ writesTable (.parity 1) = false ∧
      mayFault (.parity 1) = false) ∧
    (∃ t, exec (.refByte 1) State.reset = .next t ∧ writesTable (.refByte 1) = false) ∧
    (∃ t, exec (.fastByte 1) State.reset = .next t ∧ t.status.err = true) ∧
    (∃ t, exec (.reflect 64 1) State.reset = .next t ∧ ownFault State.reset (.reflect 64 1) = none) ∧
    (∃ t, exec .buildTable halted = .next t ∧ halted.status.err = true) :=
  ⟨⟨_, rfl, rfl, rfl, rfl⟩, ⟨_, rfl, rfl⟩, ⟨_, rfl, rfl⟩, ⟨_, rfl, rfl⟩, ⟨_, rfl, rfl⟩⟩

theorem witness_OneResponsePerCommand :
    (∃ t, step (pending State.reset 0x0141 1) = .next t ∧
      (pending State.reset 0x0141 1).events = .command ⟨0x0141, 1⟩ :: []) ∧
    (∃ t, step State.reset = .next t ∧ ∀ c rest, State.reset.events ≠ .command c :: rest) :=
  ⟨⟨_, rfl, rfl⟩, ⟨_, rfl, fun _ _ h => nomatch h⟩⟩

theorem witness_reflect_laws :
    (64 : Nat) ≤ 64 ∧ (0 : Nat) < 64 ∧ (0xFF : Word).toNat < 2 ^ 8 ∧ (7 : Nat) < 8 ∧ (8 : Nat) ≤ 8 := by decide

theorem witness_DividerIsLinear_low : (8 : Nat) ≤ 16 ∧ (0xFF : BitVec 16).toNat < 2 ^ (16 - 8) := by decide

theorem witness_SingleBitErrorDetected : Params.crc32.legal = true ∧ 7 < 8 := by decide

theorem witness_TableDependsOnWidthAndPoly :
    Params.crc8.W = { Params.crc8 with INIT := 0, REFIN := true }.W ∧
      Params.crc8.POLY = { Params.crc8 with INIT := 0, REFIN := true }.POLY := by decide

theorem witness_TableStructure :
    Params.crc8.legal = true ∧ Params.crc8.W = 8 ∧ Params.crc32.legal = true ∧
      tbl Params.crc8 0xFF = tbl Params.crc8 0xFF := ⟨by decide, rfl, by decide, rfl⟩

theorem witness_valid_table : Inv (built .crc8) ∧ (built .crc8).status.tv = true ∧ (built .crc8).status.err = false :=
  ⟨inv_built, rfl, rfl⟩

theorem witness_StepEquivalence : Params.crc16.legal = true ∧ ∀ d, tbl Params.crc16 d = tbl Params.crc16 d :=
  ⟨by decide, fun _ => rfl⟩

theorem witness_OracleEquivalence :
    ∃ T : Byte → BitVec (built .crc8).params.W, Inv (built .crc8) ∧ (built .crc8).status.tv = true ∧
      ∀ d, tblRead (built .crc8).table d = some (zext64 (T d)) :=
  ⟨tbl Params.crc8, inv_built, rfl, built_entries⟩

theorem witness_ZeroResidueCheck :
    Params.crc8.legal = true ∧ Params.crc8.W = 8 ∧ Params.crc8.REFIN = false ∧ Params.crc8.REFOUT = false ∧
      Params.crc8.XOROUT = 0 := by decide

theorem witness_ComputeFastRuns :
    ∃ T : Byte → BitVec (built .crc8).params.W, (built .crc8).params.legal = true ∧
      (built .crc8).status.err = false ∧ (built .crc8).status.tv = true ∧
      ∀ d, tblRead (built .crc8).table d = some (zext64 (T d)) :=
  ⟨tbl Params.crc8, by decide, rfl, rfl, built_entries⟩

theorem witness_StepKeepsInvariant :
    ∃ t, Inv (pending State.reset 0x11BE 0) ∧ step (pending State.reset 0x11BE 0) = .next t :=
  ⟨_, inv_events inv_reset _, rfl⟩

theorem witness_MachineNeverStops : Inv (pending (built .crc8) 0x12BE 0) ∧ Inv halted :=
  ⟨inv_events inv_built _, inv_halted⟩

theorem witness_FlagsHoldUntilReset :
    (∃ t, step (pending (built .crc8) 0x1000 0) = .next t ∧
      (∀ rest, (pending (built .crc8) 0x1000 0).events ≠ .reset :: rest) ∧
      (pending (built .crc8) 0x1000 0).status.tv = true) ∧
    (∃ t, step (pending halted 0x1000 0) = .next t ∧
      (∀ rest, (pending halted 0x1000 0).events ≠ .reset :: rest) ∧ (pending halted 0x1000 0).status.err = true) :=
  ⟨⟨_, rfl, (fun _ h => by cases h), rfl⟩, ⟨_, rfl, (fun _ h => by cases h), rfl⟩⟩

theorem witness_RebuildIsIdempotent :
    ∃ t, State.reset.table.wf = true ∧ State.reset.status.err = false ∧ exec .buildTable State.reset = .next t :=
  ⟨_, rfl, rfl, rfl⟩

theorem witness_TableUnreadWhileInvalid : State.reset.status.tv = false := rfl

end Sys2Proof.Tests
end

section
/-! SUPPORT. The step's answer by its pending event (00_scope.md R18), what one response is (R16), which commands always
answer, and the statements of 00_scope.md settled from them. -/

namespace Sys2Proof.Machine

/-! ## The step, one equation per kind of pending event -/

section StepEquations
variable {s : State} {c : Command} {rest : List Event}

/-- An instance with an illegal parameter set is refused whatever is pending (R8). -/
theorem requireLegal_illegal {k : Host.Outcome State Fault Refusal} (h : s.params.legal = false) :
    requireLegal s k = .refused .illegalParameters := by
  simp [requireLegal, h]

theorem takeEvent_nil (h : s.events = []) : takeEvent s = none := by
  simp [takeEvent, h]

theorem takeEvent_cons {e : Event} (h : s.events = e :: rest) :
    takeEvent s = some (e, { s with events := rest }) := by
  simp [takeEvent, h]

theorem step_illegal (h : s.params.legal = false) : step s = .refused .illegalParameters :=
  requireLegal_illegal h

theorem step_idle (hl : s.params.legal = true) (he : s.events = []) : step s = .next s := by
  simp only [step, requireLegal_legal hl, takeEvent_nil he]

theorem step_reset (hl : s.params.legal = true) (he : s.events = .reset :: rest) :
    step s = .next (applyReset { s with events := rest }) := by
  simp only [step, requireLegal_legal hl, takeEvent_cons he]

theorem step_decoded {i : Instr} (hl : s.params.legal = true) (he : s.events = .command c :: rest)
    (hd : decode c.cw c.opd = .ok i) : step s = exec i { s with events := rest } := by
  simp only [step, requireLegal_legal hl, takeEvent_cons he, hd]

theorem step_undecoded {e : Illegal} (hl : s.params.legal = true) (he : s.events = .command c :: rest)
    (hd : decode c.cw c.opd = .error e) : step s = rejectIllegal { s with events := rest } := by
  simp only [step, requireLegal_legal hl, takeEvent_cons he, hd]

end StepEquations

/-- Settles O7: the step's equation for a command that decodes. -/
theorem stepRunsDecoded : Obligations.StepRunsDecoded :=
  fun _ _ _ _ => step_decoded

/-- Settles O8: the step's equation for an empty queue. -/
theorem idleStepChangesNothing : Obligations.IdleStepChangesNothing :=
  fun _ => step_idle

/-- Settles O9: the legality check comes before everything else in a step. -/
theorem illegalInstanceRefused : Obligations.IllegalInstanceRefused :=
  fun _ => step_illegal

/-! ## One response per command -/

/-- From `s` to `t` one response of R72 was added: its code is at most 4 and its data 0 unless the code is 0;
`P` and the pending events stayed. -/
def AddsOneResponse (s t : State) : Prop :=
  t.params = s.params ∧ t.events = s.events ∧
    ∃ r : Response, t.responses = r :: s.responses ∧ r.rc.toNat ≤ 4 ∧ (r.rc ≠ 0 → r.rdata = 0)

/-- The code of a fault's response is one of 1, 2, 3 (R72, R170). -/
theorem rcFault_le (f : FaultCode) : (rcFault f).toNat ≤ 4 := by
  cases f <;> decide

theorem addsOneResponse_halted (s : State) : AddsOneResponse s (respond rcHalted 0 s) :=
  ⟨rfl, rfl, _, rfl, by decide, fun _ => rfl⟩

theorem addsOneResponse_raise (f : FaultCode) (s : State) : AddsOneResponse s (raise f s) :=
  ⟨rfl, rfl, _, rfl, rcFault_le f, fun _ => rfl⟩

/-- A command that executed responds with code 0, after writes that keep `P`, the queue and the older responses. -/
theorem addsOneResponse_ok (data : Word) {s u : State} (hp : u.params = s.params) (he : u.events = s.events)
    (hr : u.responses = s.responses) : AddsOneResponse s (ok data u) :=
  ⟨hp, he, ⟨rcOk, data⟩, by rw [ok_responses, hr], (by decide : rcOk.toNat ≤ 4), fun h => absurd rfl h⟩

theorem Executed.addsOneResponse {i : Instr} {s t : State} (h : Executed i s t) : AddsOneResponse s t := by
  obtain ⟨data, ⟨_, _, rfl⟩ | ⟨_, r, rfl⟩ | ⟨_, rfl⟩⟩ := h
  · exact addsOneResponse_ok data rfl rfl rfl
  · exact addsOneResponse_ok data rfl rfl rfl
  · exact addsOneResponse_ok data rfl rfl rfl

theorem exec_addsOneResponse {i : Instr} {s t : State} (h : exec i s = .next t) : AddsOneResponse s t := by
  obtain ⟨_, _, rfl⟩ | ⟨_, f, _, rfl⟩ | ⟨_, _, hx⟩ := exec_next_cases h
  · exact addsOneResponse_halted s
  · exact addsOneResponse_raise f s
  · exact hx.addsOneResponse

theorem rejectIllegal_addsOneResponse {s t : State} (h : rejectIllegal s = .next t) : AddsOneResponse s t := by
  obtain ⟨_, hr⟩ | ⟨_, hr⟩ := rejectIllegal_cases s <;> cases hr.symm.trans h
  · exact addsOneResponse_halted s
  · exact addsOneResponse_raise .illegalCommand s

/-- A step that takes a command from the queue adds one response, whether the word decodes or not. -/
theorem step_command_addsOneResponse {s t : State} {c : Command} {rest : List Event}
    (he : s.events = .command c :: rest) (h : step s = .next t) :
    AddsOneResponse { s with events := rest } t := by
  have hl : s.params.legal = true := (step_next_cases h).1
  cases hd : decode c.cw c.opd with
  | ok i => exact exec_addsOneResponse ((step_decoded hl he hd).symm.trans h)
  | error e => exact rejectIllegal_addsOneResponse ((step_undecoded hl he hd).symm.trans h)

/-- A step that takes no command adds no response and keeps `P`. -/
theorem step_noCommand_keeps {s t : State} (hne : ∀ c rest, s.events ≠ .command c :: rest)
    (h : step s = .next t) : t.responses = s.responses ∧ t.params = s.params := by
  obtain ⟨_, ⟨_, rfl⟩ | ⟨_, _, rfl⟩ | ⟨c, rest, _, he, _⟩ | ⟨c, rest, _, he, _⟩⟩ := step_next_cases h
  · exact ⟨rfl, rfl⟩
  · exact ⟨rfl, rfl⟩
  · exact absurd he (hne c rest)
  · exact absurd he (hne c rest)

/-- Settles O29: every answer of `exec` and of a rejected word is Halted, a fault, or an executed command's, and
each of these adds one response. -/
theorem oneResponsePerCommand : Obligations.OneResponsePerCommand :=
  ⟨fun _ _ _ => exec_addsOneResponse, fun _ _ _ _ => step_command_addsOneResponse,
    fun _ _ => step_noCommand_keeps⟩

/-! ## No command stops a machine whose valid table is written -/

/-- The outcome is a next state: neither a fault nor a refusal. -/
def Answers (o : Host.Outcome State Fault Refusal) : Prop :=
  ∃ t, o = .next t

/-- While `TV = 1` every table entry has a value, so no table read stops the machine (R126, log entry 6). -/
def TableReadable (s : State) : Prop :=
  s.status.tv = true → ∀ d : Byte, ∃ e, tblRead s.table d = some e

section Answers
variable {s : State} {k : Host.Outcome State Fault Refusal}

theorem answers_next (t : State) : Answers (.next t) :=
  ⟨t, rfl⟩

theorem unlessHalted_answers (hk : Answers k) : Answers (unlessHalted s k) := by
  obtain ⟨_, h⟩ | ⟨_, h⟩ := unlessHalted_cases s k <;> rw [h]
  · exact answers_next _
  · exact hk

theorem requireCount_answers (n : Byte) (hk : Answers k) : Answers (requireCount n s k) := by
  obtain ⟨_, h⟩ | ⟨_, h⟩ := requireCount_cases n s k <;> rw [h]
  · exact answers_next _
  · exact hk

theorem requireTable_answers (hk : s.status.tv = true → Answers k) : Answers (requireTable s k) := by
  obtain ⟨_, h⟩ | ⟨htv, h⟩ := requireTable_cases s k <;> rw [h]
  · exact answers_next _
  · exact hk htv

theorem withEntry_answers {i : Byte} {f : BitVec s.params.W → Host.Outcome State Fault Refusal}
    (hi : ∃ e, tblRead s.table i = some e) (hf : ∀ e, Answers (f e)) : Answers (withEntry s i f) := by
  obtain ⟨e, he⟩ := hi
  obtain ⟨e', _, h⟩ | ⟨hn, _⟩ := withEntry_cases s i f
  · exact h ▸ hf _
  · cases hn.symm.trans he

/-- The two commands that read the table check `TV` first, so a readable table is all they need. -/
theorem requireTable_withEntry_answers (hs : TableReadable s) (i : Byte)
    {f : BitVec s.params.W → Host.Outcome State Fault Refusal} (hf : ∀ e, Answers (f e)) :
    Answers (requireTable s (withEntry s i f)) :=
  requireTable_answers fun htv => withEntry_answers (hs htv i) hf

theorem exec_answers (hs : TableReadable s) (i : Instr) : Answers (exec i s) := by
  cases i with
  | reflect n v => exact unlessHalted_answers (requireCount_answers n (answers_next _))
  | parity b => exact unlessHalted_answers (answers_next _)
  | crcInit => exact unlessHalted_answers (answers_next _)
  | refByte b => exact unlessHalted_answers (answers_next _)
  | fastByte b => exact unlessHalted_answers (requireTable_withEntry_answers hs _ fun _ => answers_next _)
  | crcFinal => exact unlessHalted_answers (answers_next _)
  | crcCheck e => exact unlessHalted_answers (answers_next _)
  | buildTable => exact unlessHalted_answers (answers_next _)
  | tblRd i => exact unlessHalted_answers (requireTable_withEntry_answers hs i fun _ => answers_next _)
  | rdStatus => exact answers_next _

theorem rejectIllegal_answers (s : State) : Answers (rejectIllegal s) :=
  unlessHalted_answers (answers_next _)

theorem TableMatches.tableReadable (h : TableMatches s) : TableReadable s :=
  fun htv d => ⟨_, h htv d⟩

/-- A legal instance whose valid table is written answers every event. -/
theorem step_answers (hl : s.params.legal = true) (hs : TableReadable s) : Answers (step s) := by
  cases he : s.events with
  | nil => exact step_idle hl he ▸ answers_next _
  | cons e rest =>
    cases e with
    | reset => exact step_reset hl he ▸ answers_next _
    | command c =>
      have hs' : TableReadable { s with events := rest } := hs
      cases hd : decode c.cw c.opd with
      | ok i => exact step_decoded hl he hd ▸ exec_answers hs' i
      | error e => exact step_undecoded hl he hd ▸ rejectIllegal_answers _

end Answers

/-- Settles O55: the invariants give a legal `P` and a written table while `TV = 1`, which is all a step needs. -/
theorem machineNeverStops : Obligations.MachineNeverStops :=
  fun _ hinv => step_answers hinv.legal hinv.tableMatches.tableReadable

end Sys2Proof.Machine
end

section
/-! SUPPORT. The state (10_state.md): what the commands leave unchanged (R34), the reset state (R33), the layout of the
status byte (R25), and that every step keeps the invariants (R35); the statements of 10_state.md settled from them. -/

namespace Sys2Proof.Machine

/-! ## What an executed command leaves unchanged (R34) -/

/-- A command whose own precondition cannot be violated never raises a fault. -/
theorem ownFault_eq_none_of_not_mayFault {i : Instr} (s : State) (hi : mayFault i = false) :
    ownFault s i = none := by
  cases i with
  | reflect | fastByte | tblRd => cases hi
  | parity | crcInit | refByte | crcFinal | crcCheck | buildTable | rdStatus => rfl

section Executed
variable {i : Instr} {s t : State}

theorem Executed.rem_eq (h : Executed i s t) (hi : writesRem i = false) : t.rem = s.rem := by
  obtain ⟨_, ⟨_, _, rfl⟩ | ⟨hw, _, _⟩ | ⟨_, rfl⟩⟩ := h
  · rfl
  · cases hi.symm.trans hw
  · rfl

theorem Executed.table_eq (h : Executed i s t) (hi : writesTable i = false) :
    t.table = s.table ∧ t.status.tv = s.status.tv := by
  obtain ⟨_, ⟨_, _, rfl⟩ | ⟨_, _, rfl⟩ | ⟨rfl, _⟩⟩ := h
  · exact ⟨rfl, rfl⟩
  · exact ⟨rfl, rfl⟩
  · cases hi

theorem Executed.faultBits_eq (h : Executed i s t) :
    t.status.err = s.status.err ∧ t.status.ecode = s.status.ecode := by
  obtain ⟨_, ⟨_, _, rfl⟩ | ⟨_, _, rfl⟩ | ⟨_, rfl⟩⟩ := h
  · exact ⟨rfl, rfl⟩
  · exact ⟨rfl, rfl⟩
  · exact ⟨rfl, rfl⟩

theorem Executed.tv_of_tv (h : Executed i s t) (htv : s.status.tv = true) : t.status.tv = true := by
  obtain ⟨_, ⟨_, _, rfl⟩ | ⟨_, _, rfl⟩ | ⟨_, rfl⟩⟩ := h
  · exact htv
  · exact htv
  · rfl

end Executed

/-- The block's own state, (REM, TABLE, STATUS) of R20, is the same in `s` and `t`. -/
def SameBlock (s t : State) : Prop :=
  t.rem = s.rem ∧ t.table = s.table ∧ t.status = s.status

theorem sameBlock_respond (rc : Byte) (data : Word) (s : State) : SameBlock s (respond rc data s) :=
  ⟨rfl, rfl, rfl⟩

/-- RD_STATUS, the one command that executes in the halted state, only responds. -/
theorem Executed.sameBlock_of_rdStatus {s t : State} (h : Executed .rdStatus s t) : SameBlock s t := by
  obtain ⟨data, ⟨_, _, rfl⟩ | ⟨hw, _, _⟩ | ⟨hb, _⟩⟩ := h
  · exact sameBlock_respond rcOk data s
  · cases hw
  · cases hb

/-! ## What a command, and a rejected word, leaves unchanged -/

section Exec
variable {i : Instr} {s t : State}

/-- In the halted state no command changes the block's state (R35 (h)). -/
theorem exec_halted_sameBlock (h : exec i s = .next t) (herr : s.status.err = true) : SameBlock s t := by
  obtain ⟨_, _, rfl⟩ | ⟨hrun, _⟩ | ⟨hrun | rfl, _, hx⟩ := exec_next_cases h
  · exact sameBlock_respond rcHalted 0 s
  · cases herr.symm.trans hrun
  · cases herr.symm.trans hrun
  · exact hx.sameBlock_of_rdStatus

theorem exec_rem_eq (h : exec i s = .next t) (hi : writesRem i = false) : t.rem = s.rem := by
  obtain ⟨_, _, rfl⟩ | ⟨_, _, _, rfl⟩ | ⟨_, _, hx⟩ := exec_next_cases h
  · rfl
  · rfl
  · exact hx.rem_eq hi

/-- A command that faults or is answered Halted leaves `REM` unchanged: one that executes in a running block leaves
`ERR = 0`. -/
theorem exec_rem_eq_of_err (h : exec i s = .next t) (ht : t.status.err = true) : t.rem = s.rem := by
  obtain ⟨_, _, rfl⟩ | ⟨_, _, _, rfl⟩ | ⟨hrun | rfl, _, hx⟩ := exec_next_cases h
  · rfl
  · rfl
  · rw [hx.faultBits_eq.1, hrun] at ht
    cases ht
  · exact hx.rem_eq rfl

theorem exec_table_eq (h : exec i s = .next t) (hi : writesTable i = false) :
    t.table = s.table ∧ t.status.tv = s.status.tv := by
  obtain ⟨_, _, rfl⟩ | ⟨_, _, _, rfl⟩ | ⟨_, _, hx⟩ := exec_next_cases h
  · exact ⟨rfl, rfl⟩
  · exact ⟨rfl, rfl⟩
  · exact hx.table_eq hi

/-- A command whose own precondition holds leaves `ERR` and `ECODE` unchanged. -/
theorem exec_faultBits_eq (h : exec i s = .next t) (hf : ownFault s i = none) :
    t.status.err = s.status.err ∧ t.status.ecode = s.status.ecode := by
  obtain ⟨_, _, rfl⟩ | ⟨_, f, hf', _⟩ | ⟨_, _, hx⟩ := exec_next_cases h
  · exact ⟨rfl, rfl⟩
  · cases hf.symm.trans hf'
  · exact hx.faultBits_eq

/-- No command clears `TV` (R26). -/
theorem exec_tv_of_tv (h : exec i s = .next t) (htv : s.status.tv = true) : t.status.tv = true := by
  obtain ⟨_, _, rfl⟩ | ⟨_, _, _, rfl⟩ | ⟨_, _, hx⟩ := exec_next_cases h
  · exact htv
  · exact htv
  · exact hx.tv_of_tv htv

/-- An illegal word is answered Halted, or raises IllegalCommand in a running block. -/
theorem rejectIllegal_next_cases (h : rejectIllegal s = .next t) :
    (s.status.err = true ∧ t = respond rcHalted 0 s) ∨
      (s.status.err = false ∧ t = raise .illegalCommand s) := by
  obtain ⟨herr, hr⟩ | ⟨herr, hr⟩ := rejectIllegal_cases s <;> cases hr.symm.trans h
  · exact .inl ⟨herr, rfl⟩
  · exact .inr ⟨herr, rfl⟩

theorem rejectIllegal_halted_sameBlock (h : rejectIllegal s = .next t) (herr : s.status.err = true) :
    SameBlock s t := by
  obtain ⟨_, rfl⟩ | ⟨hrun, _⟩ := rejectIllegal_next_cases h
  · exact sameBlock_respond rcHalted 0 s
  · cases herr.symm.trans hrun

theorem rejectIllegal_tv_eq (h : rejectIllegal s = .next t) : t.status.tv = s.status.tv := by
  obtain ⟨_, rfl⟩ | ⟨_, rfl⟩ := rejectIllegal_next_cases h
  · rfl
  · rfl

end Exec

/-- Settles O26: only an executed command writes `REM`, and it leaves `ERR = 0`. -/
theorem frameOfRem : Obligations.FrameOfRem :=
  fun _ _ _ h => ⟨exec_rem_eq h, exec_rem_eq_of_err h⟩

/-- Settles O27: only an executed BUILD_TABLE writes the table, and in the halted state it does not execute. -/
theorem frameOfTable : Obligations.FrameOfTable := by
  intro i s t h hi
  have hkeep : t.table = s.table ∧ t.status.tv = s.status.tv := by
    obtain hw | herr := hi
    · exact exec_table_eq h hw
    · obtain ⟨_, htab, hst⟩ := exec_halted_sameBlock h herr
      exact ⟨htab, congrArg Status.tv hst⟩
  exact ⟨fun d => congrArg (tblRead · d) hkeep.1, hkeep⟩

/-- Settles O28: a fault is raised only by a command whose own precondition is violated. -/
theorem frameOfFaultBits : Obligations.FrameOfFaultBits :=
  fun _ s _ h => ⟨fun hi => exec_faultBits_eq h (ownFault_eq_none_of_not_mayFault s hi), exec_faultBits_eq h⟩

/-- Settles O56: of the four kinds of step, the idle one changes nothing, the reset is excluded, and a command,
decoded or not, neither clears `TV` nor changes a halted block. -/
theorem flagsHoldUntilReset : Obligations.FlagsHoldUntilReset := by
  intro s t h hne
  obtain ⟨_, ⟨_, rfl⟩ | ⟨rest, he, _⟩ | ⟨_, rest, i, _, _, hx⟩ | ⟨_, rest, _, _, _, hr⟩⟩ := step_next_cases h
  · exact ⟨id, fun _ => ⟨rfl, rfl, rfl⟩⟩
  · exact absurd he (hne rest)
  · exact ⟨(exec_tv_of_tv hx :), (exec_halted_sameBlock hx :)⟩
  · exact ⟨(rejectIllegal_tv_eq hr).trans, (rejectIllegal_halted_sameBlock hr :)⟩

/-! ## The invariants (R35), update by update -/

section Invariant
variable {s t : State}

/-- The invariants speak of neither the pending events nor the responses. -/
theorem Inv.withEvents (h : Inv s) (es : List Event) : Inv { s with events := es } :=
  ⟨h.legal, h.remFits, h.tableWf, h.tableFits, h.tableMatches, h.errCode, h.codeLegal, h.notBuilt⟩

theorem Inv.respond (h : Inv s) (rc : Byte) (data : Word) : Inv (respond rc data s) :=
  ⟨h.legal, h.remFits, h.tableWf, h.tableFits, h.tableMatches, h.errCode, h.codeLegal, h.notBuilt⟩

theorem Inv.setRem (h : Inv s) (r : BitVec s.params.W) : Inv (setRem s r) :=
  { h with remFits := fits_zext64 r }

theorem ecodeOf_ne_zero (f : FaultCode) : ecodeOf f ≠ 0 := by
  cases f <;> decide

theorem ecodeOf_le (f : FaultCode) : (ecodeOf f).toNat ≤ 3 := by
  cases f <;> decide

theorem ecodeOf_eq_two {f : FaultCode} (h : ecodeOf f = 2) : f = .tableNotBuilt := by
  cases f with
  | tableNotBuilt => rfl
  | illegalCommand | reflectRange => exact absurd h (by decide)

/-- Raising a fault keeps the invariants, TableNotBuilt while `TV = 0` only. -/
theorem Inv.raise (h : Inv s) {f : FaultCode} (hf : f = .tableNotBuilt → s.status.tv = false) :
    Inv (raise f s) where
  legal := h.legal
  remFits := h.remFits
  tableWf := h.tableWf
  tableFits := h.tableFits
  tableMatches := h.tableMatches
  errCode := ⟨fun he => (nomatch he), fun hc => absurd hc (ecodeOf_ne_zero f)⟩
  codeLegal := ecodeOf_le f
  notBuilt hc := hf (ecodeOf_eq_two hc)

/-- A build in a running block keeps the invariants: every entry becomes `tbl`, and `ECODE` is 0. -/
theorem Inv.buildTable (h : Inv s) (herr : s.status.err = false) :
    Inv { s with table := buildAll s.params s.table, status := markTableValid s.status } where
  legal := h.legal
  remFits := h.remFits
  tableWf := buildAll_keeps_wf s.params h.tableWf
  tableFits := buildAll_keeps_fit s.params h.tableFits
  tableMatches _ := tblRead_buildAll s.params s.table
  errCode := h.errCode
  codeLegal := h.codeLegal
  notBuilt hc := by
    have h0 : s.status.ecode = 0 := h.errCode.1 herr
    exact absurd (h0.symm.trans hc) (by decide)

/-- The reset state of a legal instance meets the invariants (R33). -/
theorem inv_resetOf {P : Params} (hP : P.legal = true) : Inv (State.resetOf P) where
  legal := hP
  remFits := fits_zext64 (initial P)
  tableWf := reset_memory_wf P
  tableFits := rfl
  tableMatches htv := by cases htv
  errCode := ⟨fun _ => rfl, fun _ => rfl⟩
  codeLegal := Nat.zero_le 3
  notBuilt _ := rfl

theorem inv_applyReset (hl : s.params.legal = true) : Inv (applyReset s) :=
  have h := inv_resetOf hl
  ⟨h.legal, h.remFits, h.tableWf, h.tableFits, h.tableMatches, h.errCode, h.codeLegal, h.notBuilt⟩

/-- A command raises TableNotBuilt only while `TV = 0` (R126). -/
theorem tv_eq_false_of_ownFault_tableNotBuilt {i : Instr} (h : ownFault s i = some .tableNotBuilt) :
    s.status.tv = false := by
  cases i with
  | fastByte b => cases htv : s.status.tv <;> simp [ownFault, htv] at h ⊢
  | tblRd d => cases htv : s.status.tv <;> simp [ownFault, htv] at h ⊢
  | reflect n v => simp [ownFault] at h
  | parity | crcInit | refByte | crcFinal | crcCheck | buildTable | rdStatus => cases h

theorem Executed.inv {i : Instr} (hx : Executed i s t) (h : Inv s)
    (hrun : s.status.err = false ∨ i = .rdStatus) : Inv t := by
  obtain ⟨data, ⟨_, _, rfl⟩ | ⟨_, r, rfl⟩ | ⟨rfl, rfl⟩⟩ := hx
  · exact h.respond rcOk data
  · exact (h.setRem r).respond rcOk data
  · have herr : s.status.err = false := hrun.resolve_right (by simp)
    exact (h.buildTable herr).respond rcOk data

theorem exec_inv {i : Instr} (h : Inv s) (hx : exec i s = .next t) : Inv t := by
  obtain ⟨_, _, rfl⟩ | ⟨_, f, hf, rfl⟩ | ⟨hrun, _, hex⟩ := exec_next_cases hx
  · exact h.respond rcHalted 0
  · exact h.raise fun hf' => tv_eq_false_of_ownFault_tableNotBuilt (hf' ▸ hf)
  · exact hex.inv h hrun

theorem rejectIllegal_inv (h : Inv s) (hr : rejectIllegal s = .next t) : Inv t := by
  obtain ⟨_, rfl⟩ | ⟨_, rfl⟩ := rejectIllegal_next_cases hr
  · exact h.respond rcHalted 0
  · exact h.raise fun hf => by cases hf

end Invariant

/-- Settles O54: of the four kinds of step, the idle one changes nothing, a reset establishes the invariants, and a
command, decoded or not, keeps them. -/
theorem stepKeepsInvariant : Obligations.StepKeepsInvariant := by
  intro s t hinv h
  obtain ⟨hl, ⟨_, rfl⟩ | ⟨rest, _, rfl⟩ | ⟨_, rest, _, _, _, hx⟩ | ⟨_, rest, _, _, _, hr⟩⟩ := step_next_cases h
  · exact hinv
  · exact inv_applyReset hl
  · exact exec_inv (hinv.withEvents rest) hx
  · exact rejectIllegal_inv (hinv.withEvents rest) hr

theorem crc8_legal : Params.crc8.legal = true := by decide

/-- Settles O53: the reset state by its fields, for every legal instance and so for the CRC-8 one. -/
theorem resetMeetsInvariant : Obligations.ResetMeetsInvariant :=
  ⟨fun _ => inv_resetOf, inv_resetOf crc8_legal⟩

/-! ## The values after reset (R33, R190) -/

/-- A 64-bit value below `2^W` survives being cut to W bits. -/
theorem zext64_setWidth_of_fits {P : Params} {v : Word} (h : P.fits v = true) :
    zext64 (v.setWidth P.W) = v := by
  have hv : v.toNat < 2 ^ P.W := of_decide_eq_true h
  apply BitVec.eq_of_toNat_eq
  rw [zext64, BitVec.toNat_setWidth, BitVec.toNat_setWidth, Nat.mod_eq_of_lt hv, Nat.mod_eq_of_lt v.isLt]

/-- `INIT` of a legal instance is a W-bit value. -/
theorem zext64_initial {P : Params} (h : P.legal = true) : zext64 (initial P) = P.INIT := by
  obtain ⟨_, _, hinit, _⟩ := (legal_iff P).1 h
  exact zext64_setWidth_of_fits (decide_eq_true hinit)

theorem tblRead_nil (d : Byte) : tblRead [] d = none := rfl

theorem statusByte_reset : statusByte .reset = 0x00 := by decide

/-- Settles O10: the step's equation for a reset, and the reset state field by field. -/
theorem resetGivesResetState : Obligations.ResetGivesResetState := by
  refine ⟨fun s rest hl he => ?_, zext64_initial crc8_legal, statusByte_reset, tblRead_nil⟩
  exact ⟨_, step_reset hl he, zext64_initial hl, rfl, rfl, rfl, statusByte_reset, tblRead_nil, rfl, rfl, rfl⟩

/-! ## Reads of the table (R33, R126) -/

theorem withEntry_unwritten {s : State} {i : Byte} {k : BitVec s.params.W → Host.Outcome State Fault Refusal}
    (h : tblRead s.table i = none) : withEntry s i k = .fault (.tableEntryUnwritten i) := by
  simp [withEntry, h]

/-- Settles O25: both commands pass the halted and the table check, and their read then finds no value. -/
theorem unwrittenEntryStops : Obligations.UnwrittenEntryStops := by
  refine ⟨fun i s herr htv hnone => ?_, fun b s herr htv hnone => ?_⟩
  · rw [exec, execTblRd, unlessHalted_running herr, requireTable_valid htv, withEntry_unwritten hnone]
  · rw [exec, execFastByte, unlessHalted_running herr, requireTable_valid htv, withEntry_unwritten hnone]

/-- Both outcomes are next states, with the same `REM`, `STATUS` and responses; the tables may differ. -/
def AgreeOffTable (o₁ o₂ : Host.Outcome State Fault Refusal) : Prop :=
  ∃ t₁ t₂, o₁ = .next t₁ ∧ o₂ = .next t₂ ∧
    t₁.rem = t₂.rem ∧ t₁.status = t₂.status ∧ t₁.responses = t₂.responses

section AgreeOffTable
variable {s : State} {m₁ m₂ : Memory} {k₁ k₂ : Host.Outcome State Fault Refusal}

theorem agreeOffTable_next {t₁ t₂ : State} (hrem : t₁.rem = t₂.rem) (hst : t₁.status = t₂.status)
    (hresp : t₁.responses = t₂.responses) : AgreeOffTable (.next t₁) (.next t₂) :=
  ⟨t₁, t₂, rfl, rfl, hrem, hst, hresp⟩

theorem agreeOffTable_unlessHalted (hk : AgreeOffTable k₁ k₂) :
    AgreeOffTable (unlessHalted { s with table := m₁ } k₁) (unlessHalted { s with table := m₂ } k₂) := by
  cases herr : s.status.err with
  | false =>
    rwa [unlessHalted_running (s := { s with table := m₁ }) herr,
      unlessHalted_running (s := { s with table := m₂ }) herr]
  | true =>
    rw [unlessHalted_halted (s := { s with table := m₁ }) herr,
      unlessHalted_halted (s := { s with table := m₂ }) herr]
    exact agreeOffTable_next rfl rfl rfl

theorem agreeOffTable_requireCount (n : Byte) (hk : AgreeOffTable k₁ k₂) :
    AgreeOffTable (requireCount n { s with table := m₁ } k₁) (requireCount n { s with table := m₂ } k₂) := by
  unfold requireCount
  split
  · exact agreeOffTable_next rfl rfl rfl
  · exact hk

/-- While `TV = 0` the table check raises its fault, so what would read the table never runs. -/
theorem agreeOffTable_requireTable (htv : s.status.tv = false) :
    AgreeOffTable (requireTable { s with table := m₁ } k₁) (requireTable { s with table := m₂ } k₂) := by
  rw [requireTable_invalid (s := { s with table := m₁ }) htv,
    requireTable_invalid (s := { s with table := m₂ }) htv]
  exact agreeOffTable_next rfl rfl rfl

end AgreeOffTable

/-- Settles O59: the two commands that read the table stop at the table check, and the others compute their answer,
`REM` and `STATUS` without the table. -/
theorem tableUnreadWhileInvalid : Obligations.TableUnreadWhileInvalid := by
  intro i s m₁ m₂ htv
  change AgreeOffTable _ _
  cases i with
  | reflect n v =>
    exact agreeOffTable_unlessHalted (agreeOffTable_requireCount n (agreeOffTable_next rfl rfl rfl))
  | fastByte | tblRd => exact agreeOffTable_unlessHalted (agreeOffTable_requireTable htv)
  | parity | crcInit | refByte | crcFinal | crcCheck | buildTable =>
    exact agreeOffTable_unlessHalted (agreeOffTable_next rfl rfl rfl)
  | rdStatus => exact agreeOffTable_next rfl rfl rfl

/-! ## The status byte (R25) -/

/-- Bit `i` of the status byte: `TV`, `ERR`, two zeros, then `ECODE`. -/
theorem getLsbD_statusByte (st : Status) (i : Nat) :
    (statusByte st).getLsbD i =
      if i = 0 then st.tv else if i = 1 then st.err else if i < 4 then false else st.ecode.getLsbD (i - 4) := by
  simp only [statusByte, BitVec.getLsbD_append]
  match i with
  | 0 | 1 | 2 | 3 => simp
  | j + 4 => simp

/-- Settles O57: each field of the byte, bit by bit. -/
theorem statusByteLayout : Obligations.StatusByteLayout := by
  intro st
  refine ⟨getLsbD_statusByte st 0, getLsbD_statusByte st 1, ?_, ?_⟩
  · apply BitVec.eq_of_getLsbD_eq
    intro i hi
    have h₁ : 2 + i ≠ 1 := by omega
    have h₂ : 2 + i < 4 := by omega
    simp [hi, getLsbD_statusByte, h₁, h₂]
  · apply BitVec.eq_of_getLsbD_eq
    intro i hi
    have h₁ : 4 + i ≠ 1 := by omega
    have h₂ : ¬ 4 + i < 4 := by omega
    simp [hi, getLsbD_statusByte, h₁, h₂]

end Sys2Proof.Machine
end

section
/-! SUPPORT. What the decoder answers (30_encoding.md R75), which command words are illegal (R76), what encoding and
decoding give in either order, and the assembler's operand fields (R79). -/

namespace Sys2Proof

variable {cw : CmdWord} {opd : Word} {op : Byte}

/-! ## Decoding an encoding -/

/-- Settles O2: the opcode that `encode` writes selects the instruction's own row of the decoder, and the operands stand
in the fields that this row reads. -/
theorem decodeAfterEncode : Obligations.DecodeAfterEncode := by
  intro i
  cases i with
  | reflect n v => simp [encode, decode]
  | parity b => simp [encode, decode]
  | crcInit => simp [encode, decode, mustBeZero_zero]
  | refByte b => simp [encode, decode]
  | fastByte b => simp [encode, decode]
  | crcFinal => simp [encode, decode, mustBeZero_zero]
  | crcCheck e => simp [encode, decode, mustBeZero_zero]
  | buildTable => simp [encode, decode, mustBeZero_zero]
  | tblRd i => simp [encode, decode]
  | rdStatus => simp [encode, decode, mustBeZero_zero]

/-! ## What the decoder can answer -/

/-- The opcodes of formats Z and X, whose `imm8` must be 0x00 (R71). -/
def mustBeZeroOpcodes : List Byte := [0x10, 0x13, 0x14, 0x20, 0x30]

/-- The opcodes of the opcode map (R74). -/
def assignedOpcodes : List Byte := [0x01, 0x02, 0x10, 0x11, 0x12, 0x13, 0x14, 0x20, 0x21, 0x30]

/-- The illegal command words, (a) and (b) of R76. -/
def IllegalWord (cw : CmdWord) : Prop :=
  opcodeOf cw ∉ assignedOpcodes ∨ (opcodeOf cw ∈ mustBeZeroOpcodes ∧ imm8Of cw ≠ 0x00)

/-- The instruction's command is this word, with this operand bus where its format uses it (R71, R80). -/
def EncodesAs (i : Instr) (cw : CmdWord) (opd : Word) : Prop :=
  (encode i).cw = cw ∧ (encode i).opd = if usesOpd (formatOf i) then opd else 0

/-- What an answer of the decoder says about the word and the bus it was given. -/
def Describes (cw : CmdWord) (opd : Word) : Except Illegal Instr → Prop
  | .ok i => EncodesAs i cw opd
  | .error _ => IllegalWord cw

theorem cmdWord_of_opcode (h : (opcodeOf cw).toNat = op.toNat) : cmdWord op (imm8Of cw) = cw :=
  BitVec.eq_of_toNat_eq h ▸ cmdWord_fields cw

/-- A format Z or X row describes the word when its instruction, at `imm8` 0x00, encodes as the word. -/
theorem mustBeZero_describes {i : Instr} (hop : (opcodeOf cw).toNat = op.toNat) (hz : op ∈ mustBeZeroOpcodes)
    (hi : cmdWord op 0 = cw → EncodesAs i cw opd) : Describes cw opd (mustBeZero cw i) := by
  by_cases h : imm8Of cw = 0
  · rw [mustBeZero_zero h]
    exact hi (h ▸ cmdWord_of_opcode hop)
  · rw [mustBeZero_nonzero h]
    exact .inr ⟨BitVec.eq_of_toNat_eq hop ▸ hz, h⟩

/-- The decoder's answer in every case: an instruction that encodes as the word, or an error on an illegal word. -/
theorem decode_describes (cw : CmdWord) (opd : Word) : Describes cw opd (decode cw opd) := by
  unfold decode
  split
  case h_1 hop => exact ⟨cmdWord_of_opcode (op := 0x01) hop, rfl⟩
  case h_2 hop => exact ⟨cmdWord_of_opcode (op := 0x02) hop, rfl⟩
  case h_3 hop => exact mustBeZero_describes (op := 0x10) hop (by decide) (⟨·, rfl⟩)
  case h_4 hop => exact ⟨cmdWord_of_opcode (op := 0x11) hop, rfl⟩
  case h_5 hop => exact ⟨cmdWord_of_opcode (op := 0x12) hop, rfl⟩
  case h_6 hop => exact mustBeZero_describes (op := 0x13) hop (by decide) (⟨·, rfl⟩)
  case h_7 hop => exact mustBeZero_describes (op := 0x14) hop (by decide) (⟨·, rfl⟩)
  case h_8 hop => exact mustBeZero_describes (op := 0x20) hop (by decide) (⟨·, rfl⟩)
  case h_9 hop => exact ⟨cmdWord_of_opcode (op := 0x21) hop, rfl⟩
  case h_10 hop => exact mustBeZero_describes (op := 0x30) hop (by decide) (⟨·, rfl⟩)
  case h_11 =>
    have hun : opcodeOf cw ∉ assignedOpcodes := by
      simp_all [assignedOpcodes, ← BitVec.toNat_inj]
    exact .inl hun

theorem encodesAs_of_decode {i : Instr} (h : decode cw opd = .ok i) : EncodesAs i cw opd := by
  have hd := decode_describes cw opd
  rwa [h] at hd

theorem illegalWord_of_decode {e : Illegal} (h : decode cw opd = .error e) : IllegalWord cw := by
  have hd := decode_describes cw opd
  rwa [h] at hd

/-- Settles O3, from the decoder's answer in every case. -/
theorem encodeAfterDecode : Obligations.EncodeAfterDecode :=
  fun _ _ _ => encodesAs_of_decode

/-! ## Legal words -/

/-- No instruction is encoded as an illegal word. -/
theorem encode_legal (i : Instr) : ¬ IllegalWord (encode i).cw := by
  cases i <;> simp [encode, IllegalWord, assignedOpcodes, mustBeZeroOpcodes]

theorem decode_error_iff : (∃ e, decode cw opd = .error e) ↔ IllegalWord cw := by
  constructor
  · rintro ⟨e, he⟩
    exact illegalWord_of_decode he
  · intro hill
    cases hd : decode cw opd with
    | error e => exact ⟨e, rfl⟩
    | ok i => exact absurd ((encodesAs_of_decode hd).1 ▸ hill) (encode_legal i)

theorem decode_ok_iff : (∃ i, decode cw opd = .ok i) ↔ ¬ IllegalWord cw := by
  rw [← decode_error_iff (opd := opd)]
  cases decode cw opd <;> simp

/-- Settles O5: `IllegalWord` is R76 (a) or (b). -/
theorem illegalWordsAreThese : Obligations.IllegalWordsAreThese :=
  fun _ _ => decode_error_iff

/-! ## The rows of the opcode map -/

/-- A word selects a row when both of its fields match under the row's mask. -/
theorem selects_iff (cw : CmdWord) (row : CmdWord × CmdWord) :
    selects cw row = true ↔
      opcodeOf cw &&& opcodeOf row.2 = opcodeOf row.1 ∧ imm8Of cw &&& imm8Of row.2 = imm8Of row.1 := by
  have hfields (a b : CmdWord) : a = b ↔ opcodeOf a = opcodeOf b ∧ imm8Of a = imm8Of b := by
    constructor
    · rintro rfl
      exact ⟨rfl, rfl⟩
    · rintro ⟨hop, himm⟩
      rw [← cmdWord_fields a, ← cmdWord_fields b, hop, himm]
  rw [selects, beq_iff_eq, hfields]
  simp only [opcodeOf, imm8Of, BitVec.extractLsb'_and]

/-- Every row fixes all bits of the opcode, to an assigned one. -/
theorem opcodeRows_opcode : ∀ row ∈ opcodeRows, opcodeOf row.2 = 0xFF ∧ opcodeOf row.1 ∈ assignedOpcodes := by
  simp [opcodeRows, opcodeOf, assignedOpcodes]

/-- A row of format Z or X fixes `imm8` to 0x00. -/
theorem opcodeRows_imm8 :
    ∀ row ∈ opcodeRows, opcodeOf row.1 ∈ mustBeZeroOpcodes → imm8Of row.2 = 0xFF ∧ imm8Of row.1 = 0 := by
  simp [opcodeRows, opcodeOf, imm8Of, mustBeZeroOpcodes]

/-- No two rows have one opcode. -/
theorem opcodeRows_opcode_nodup : (opcodeRows.map fun row => opcodeOf row.1).Nodup := by
  decide

theorem byte_and_0xFF (b : Byte) : b &&& 0xFF = b :=
  BitVec.and_allOnes

/-- A word has the opcode of every row it selects. -/
theorem opcodeOf_of_selects {row : CmdWord × CmdWord} (hrow : row ∈ opcodeRows) (h : selects cw row = true) :
    opcodeOf cw = opcodeOf row.1 := by
  have hop := ((selects_iff cw row).1 h).1
  rwa [(opcodeRows_opcode row hrow).1, byte_and_0xFF] at hop

/-- At most one row matches (R74). -/
theorem selects_unique {r row : CmdWord × CmdWord} (hr : r ∈ opcodeRows) (hrow : row ∈ opcodeRows)
    (h : selects cw r = true) (h' : selects cw row = true) : r = row :=
  List.inj_on_of_nodup_map opcodeRows_opcode_nodup hr hrow
    ((opcodeOf_of_selects hr h).symm.trans (opcodeOf_of_selects hrow h'))

/-- A word that selects a row is legal. -/
theorem legal_of_selects {row : CmdWord × CmdWord} (hrow : row ∈ opcodeRows) (h : selects cw row = true) :
    ¬ IllegalWord cw := by
  have hop := opcodeOf_of_selects hrow h
  rintro (hun | ⟨hz, himm⟩)
  · exact hun (hop ▸ (opcodeRows_opcode row hrow).2)
  · obtain ⟨hmask, hmatch⟩ := opcodeRows_imm8 row hrow (hop ▸ hz)
    have := ((selects_iff cw row).1 h).2
    rw [hmask, hmatch, byte_and_0xFF] at this
    exact himm this

/-- Every instruction's word selects its row. -/
theorem encode_selects_rowOf : ∀ i : Instr, selects (encode i).cw (rowOf i) = true
  | .reflect n v => Laws.EncodeSelectsRow.reflect n v
  | .parity b => Laws.EncodeSelectsRow.parity b
  | .crcInit => Laws.EncodeSelectsRow.crcInit
  | .refByte b => Laws.EncodeSelectsRow.refByte b
  | .fastByte b => Laws.EncodeSelectsRow.fastByte b
  | .crcFinal => Laws.EncodeSelectsRow.crcFinal
  | .crcCheck e => Laws.EncodeSelectsRow.crcCheck e
  | .buildTable => Laws.EncodeSelectsRow.buildTable
  | .tblRd i => Laws.EncodeSelectsRow.tblRd i
  | .rdStatus => Laws.EncodeSelectsRow.rdStatus

/-- A word that decodes selects the row of its instruction. -/
theorem selects_rowOf_of_decode {i : Instr} (h : decode cw opd = .ok i) : selects cw (rowOf i) = true :=
  (encodesAs_of_decode h).1 ▸ encode_selects_rowOf i

/-- A word that does not decode selects no row. -/
theorem selects_eq_false_of_decode {e : Illegal} (h : decode cw opd = .error e) :
    ∀ r ∈ opcodeRows, selects cw r = false :=
  fun _ hr => Bool.eq_false_of_not_eq_true fun hs => legal_of_selects hr hs (illegalWord_of_decode h)

/-! ## The number of legal words -/

theorem toNat_cmdWord (op b : Byte) : (cmdWord op b).toNat = 256 * op.toNat + b.toNat := by
  rw [cmdWord, BitVec.toNat_append, Nat.shiftLeft_eq, mul_comm, Nat.two_pow_add_eq_or_of_lt b.isLt]

/-- The command word of an opcode-table number, by its two fields. -/
theorem tableCommand_cw (opcode imm8 : Nat) (h : imm8 < 256) :
    (tableCommand 16 (256 * opcode + imm8)).cw = cmdWord (BitVec.ofNat 8 opcode) (BitVec.ofNat 8 imm8) := by
  apply BitVec.eq_of_toNat_eq
  simp only [tableCommand, toNat_cmdWord, BitVec.toNat_ofNat]
  omega

theorem decodeTableWord_isSome_iff (opcode imm8 : Nat) (h : imm8 < 256) :
    (decodeTableWord 16 (256 * opcode + imm8)).isSome = true ↔
      ¬ IllegalWord (cmdWord (BitVec.ofNat 8 opcode) (BitVec.ofNat 8 imm8)) := by
  rw [← tableCommand_cw opcode imm8 h, ← decode_ok_iff (opd := 0), decodeTableWord]
  change _ ↔ ∃ i, decode _ (tableCommand 16 (256 * opcode + imm8)).opd = .ok i
  cases decode _ (tableCommand 16 (256 * opcode + imm8)).opd <;> simp

/-- How many of the 256 words of an opcode are legal: one for formats Z and X, all for formats B and V (R75). -/
def legalCount (opcode : Byte) : Nat :=
  if opcode ∈ assignedOpcodes then if opcode ∈ mustBeZeroOpcodes then 1 else 256 else 0

theorem countP_decodeTableWord (opcode : Nat) :
    ((List.range 256).countP fun imm8 => (decodeTableWord 16 (256 * opcode + imm8)).isSome) =
      legalCount (BitVec.ofNat 8 opcode) := by
  have hlegal (imm8 : Nat) (hmem : imm8 ∈ List.range 256) :=
    decodeTableWord_isSome_iff opcode imm8 (List.mem_range.1 hmem)
  simp only [IllegalWord, opcodeOf_cmdWord, imm8Of_cmdWord] at hlegal
  unfold legalCount
  split_ifs with hop hz
  · have hzero : (List.range 256).countP (fun imm8 => BitVec.ofNat 8 imm8 = 0) = 1 := by decide +kernel
    rw [← hzero]
    refine List.countP_congr fun imm8 hmem => ?_
    simp [hlegal imm8 hmem, hop, hz]
  · refine (List.countP_eq_length.2 fun imm8 hmem => ?_).trans List.length_range
    simp [hlegal imm8 hmem, hop, hz]
  · refine List.countP_eq_zero.2 fun imm8 hmem => ?_
    simp [hlegal imm8 hmem, hop]

/-- Settles O4: the matching row is the row of the decoded instruction, legality is `IllegalWord`, which has no operand
bus, and the legal words are counted opcode by opcode. -/
theorem decodeIsTotalAndCounted : Obligations.DecodeIsTotalAndCounted := by
  refine ⟨fun cw opd => ?_, fun cw opd opd' => decode_ok_iff.trans decode_ok_iff.symm, ?_⟩
  · cases hd : decode cw opd with
    | ok i =>
      have hsel := selects_rowOf_of_decode hd
      exact .inl ⟨i, rowOf i, rowOf_mem i, hsel, fun _ hr h => selects_unique hr (rowOf_mem i) h hsel, rfl, rfl,
        (encodesAs_of_decode hd).1⟩
    | error e => exact .inr ⟨selects_eq_false_of_decode hd, e, rfl⟩
  · simp only [countP_decodeTableWord]
    decide +kernel

/-- Settles O1: the decoder evaluated on the fourteen words. -/
theorem decodeReadsSpecWords : Obligations.DecodeReadsSpecWords := by
  unfold Obligations.DecodeReadsSpecWords
  decide

end Sys2Proof

namespace Sys2Proof.Machine

/-! ## The assembler -/

/-- A field's own value fits it. -/
@[simp] theorem asField_toNat {n : Nat} (v : BitVec n) : asField n v.toNat = some v := by
  simp [asField, v.isLt]

/-- Settles O6: each mnemonic selects its own command, and each operand fits its field. -/
theorem assemblerAgreesWithEncoder : Obligations.AssemblerAgreesWithEncoder := by
  intro i
  cases i <;> simp [mnemonicOf, operandsOf, assemble]

end Sys2Proof.Machine
end

section
/-! SUPPORT. The bit reversal (40_reflect.md): which bit of the value each bit of the result is (R90), reflecting twice
(R93), the laws of R94 and the command (R92); the statements of 40_reflect.md settled from them. -/

namespace Sys2Proof.Machine

variable {w n : Nat}

/-! ## The bits of a reflected value (R90) -/

theorem getLsbD_reflect (hn : n ≤ w) (v : BitVec w) (j : Nat) :
    (reflect v n).getLsbD j = (decide (j < n) && v.getLsbD (n - 1 - j)) := by
  rw [reflect, BitVec.getLsbD_setWidth, BitVec.getLsbD_reverse, BitVec.getMsbD_eq_getLsbD, BitVec.getLsbD_setWidth]
  by_cases hj : j < n
  · have hjw : j < w := by omega
    have hi : n - 1 - j < n := by omega
    simp [hj, hjw, hi]
  · simp [hj]

theorem getLsbD_reflect_mirrored (hn : n ≤ w) (v : BitVec w) {i : Nat} (hi : i < n) :
    (reflect v n).getLsbD (n - 1 - i) = v.getLsbD i := by
  have hj : n - 1 - i < n := by omega
  have hback : n - 1 - (n - 1 - i) = i := by omega
  simp [getLsbD_reflect hn, hj, hback]

theorem getLsbD_reflect_of_le (hn : n ≤ w) (v : BitVec w) {j : Nat} (hj : n ≤ j) :
    (reflect v n).getLsbD j = false := by
  simp [getLsbD_reflect hn, Nat.not_lt.2 hj]

@[simp] theorem reflect_zero_count (v : BitVec w) : reflect v 0 = 0 :=
  BitVec.eq_of_getLsbD_eq fun _ _ => by simp [getLsbD_reflect (Nat.zero_le w)]

theorem toNat_reflect_lt (hn : n ≤ w) (v : BitVec w) : (reflect v n).toNat < 2 ^ n :=
  Nat.lt_pow_two_of_testBit _ fun _ hj => (BitVec.testBit_toNat _).trans (getLsbD_reflect_of_le hn v hj)

/-! ## A reflected value as a sum of powers of two (R90) -/

/-- The low `n` bits of a number, each with its weight. -/
theorem mod_two_pow_eq_sum (x n : Nat) :
    x % 2 ^ n = ∑ j ∈ Finset.range n, (x.testBit j).toNat * 2 ^ j := by
  induction n with
  | zero => simp [Nat.mod_one]
  | succ n ih =>
    rw [Finset.sum_range_succ, ← ih, Nat.mod_pow_succ, Nat.toNat_testBit, mul_comm (2 ^ n)]

theorem toNat_eq_sum_of_lt {x : BitVec w} (hx : x.toNat < 2 ^ n) :
    x.toNat = ∑ j ∈ Finset.range n, (x.getLsbD j).toNat * 2 ^ j := by
  simpa only [Nat.mod_eq_of_lt hx, BitVec.testBit_toNat] using mod_two_pow_eq_sum x.toNat n

/-- The sum runs over the bits of the result; taken from the top down, it runs over the bits of the value. -/
theorem toNat_reflect_eq_sum (hn : n ≤ w) (v : BitVec w) :
    (reflect v n).toNat = ∑ i ∈ Finset.range n, (v.getLsbD i).toNat * 2 ^ (n - 1 - i) := by
  rw [toNat_eq_sum_of_lt (toNat_reflect_lt hn v), ← Finset.sum_range_reflect]
  refine Finset.sum_congr rfl fun i hi => ?_
  rw [getLsbD_reflect_mirrored hn v (Finset.mem_range.1 hi)]

/-- Settles O30: every clause follows from the bits of the result. -/
theorem reflectReversesLowBits : Obligations.ReflectReversesLowBits := by
  intro w n v hn
  exact ⟨fun _ => getLsbD_reflect_mirrored hn v, fun _ => getLsbD_reflect_of_le hn v, toNat_reflect_eq_sum hn v,
    toNat_reflect_lt hn v, reflect_zero_count v⟩

/-! ## Reflecting twice (R93) -/

/-- `reflect` reads the low `n` bits of its value only. -/
theorem reflect_congr {a b : BitVec w} (h : a.setWidth n = b.setWidth n) : reflect a n = reflect b n := by
  rw [reflect, h, reflect]

theorem setWidth_reflect (hn : n ≤ w) (v : BitVec w) :
    (reflect v n).setWidth n = (v.setWidth n).reverse := by
  rw [reflect, BitVec.setWidth_setWidth_of_le _ hn, BitVec.setWidth_eq]

theorem reflect_reflect (hn : n ≤ w) (v : BitVec w) :
    reflect (reflect v n) n = (v.setWidth n).setWidth w := by
  rw [reflect, setWidth_reflect hn, BitVec.reverse_reverse_eq]

theorem toNat_reflect_reflect (hn : n ≤ w) (v : BitVec w) :
    (reflect (reflect v n) n).toNat = v.toNat % 2 ^ n := by
  rw [reflect_reflect hn, BitVec.toNat_setWidth_of_le hn, BitVec.toNat_setWidth]

theorem reflect_reflect_of_lt (hn : n ≤ w) {v : BitVec w} (hv : v.toNat < 2 ^ n) :
    reflect (reflect v n) n = v :=
  BitVec.eq_of_toNat_eq ((toNat_reflect_reflect hn v).trans (Nat.mod_eq_of_lt hv))

/-- Settles O31: the low `n` bits reversed twice are the low `n` bits. -/
theorem reflectTwiceIsModulo : Obligations.ReflectTwiceIsModulo :=
  fun _ _ v hn => ⟨toNat_reflect_reflect hn v, reflect_reflect_of_lt hn⟩

/-! ## The laws of R94 -/

theorem reflect_xor (hn : n ≤ w) (a b : BitVec w) : reflect (a ^^^ b) n = reflect a n ^^^ reflect b n := by
  apply BitVec.eq_of_getLsbD_eq
  intro j _
  simp only [BitVec.getLsbD_xor, getLsbD_reflect hn, Bool.and_xor_distrib_left]

theorem reflect_mod_two_pow (hn : n ≤ w) (v : BitVec w) :
    reflect v n = reflect (BitVec.ofNat w (v.toNat % 2 ^ n)) n := by
  apply reflect_congr
  apply BitVec.eq_of_toNat_eq
  rw [BitVec.toNat_setWidth, BitVec.toNat_setWidth, BitVec.toNat_ofNat, Nat.mod_mod_of_dvd _ (pow_dvd_pow 2 hn),
    Nat.mod_mod]

/-- `reflect` maps the values below `2^n` to themselves and is its own inverse there. -/
theorem reflect_bijOn (hn : n ≤ w) :
    Set.BijOn (fun v : BitVec w => reflect v n) {v | v.toNat < 2 ^ n} {v | v.toNat < 2 ^ n} :=
  Set.InvOn.bijOn (f' := fun v => reflect v n)
    ⟨fun _ => reflect_reflect_of_lt hn, fun _ => reflect_reflect_of_lt hn⟩
    (fun v _ => toNat_reflect_lt hn v) (fun v _ => toNat_reflect_lt hn v)

theorem getLsbD_ofNat_two_pow (w i j : Nat) :
    (BitVec.ofNat w (2 ^ i)).getLsbD j = (decide (j < w) && decide (i = j)) := by
  rw [BitVec.getLsbD_ofNat, Nat.testBit_two_pow]

/-- A single bit below `n` goes to its mirrored position. -/
theorem reflect_two_pow (hn : n ≤ w) {i : Nat} (hi : i < n) :
    reflect (BitVec.ofNat w (2 ^ i)) n = BitVec.ofNat w (2 ^ (n - 1 - i)) := by
  apply BitVec.eq_of_getLsbD_eq
  intro j hj
  rw [getLsbD_reflect hn, getLsbD_ofNat_two_pow, getLsbD_ofNat_two_pow, Bool.eq_iff_iff]
  simp only [Bool.and_eq_true, decide_eq_true_eq]
  omega

/-- A single bit from `n` on is dropped. -/
theorem reflect_two_pow_of_le (hn : n ≤ w) {i : Nat} (hi : n ≤ i) : reflect (BitVec.ofNat w (2 ^ i)) n = 0 := by
  apply BitVec.eq_of_getLsbD_eq
  intro j _
  have hne : j < n → i ≠ n - 1 - j := by omega
  rw [getLsbD_reflect hn, getLsbD_ofNat_two_pow]
  by_cases hj : j < n
  · simp [hne hj]
  · simp [hj]

theorem reflect_zero (hn : n ≤ w) : reflect (0 : BitVec w) n = 0 :=
  BitVec.eq_of_getLsbD_eq fun _ _ => by simp [getLsbD_reflect hn]

theorem reflect_two_pow_sub_one (hn : n ≤ w) :
    reflect (BitVec.ofNat w (2 ^ n - 1)) n = BitVec.ofNat w (2 ^ n - 1) := by
  apply BitVec.eq_of_getLsbD_eq
  intro j hj
  rw [getLsbD_reflect hn, BitVec.getLsbD_ofNat, BitVec.getLsbD_ofNat, Nat.testBit_two_pow_sub_one,
    Nat.testBit_two_pow_sub_one, Bool.eq_iff_iff]
  simp only [Bool.and_eq_true, decide_eq_true_eq]
  omega

/-! ## Population count and parity -/

/-- Counting over `0 .. n - 1` from the top down counts the same. -/
theorem countP_range_mirrored (p : Nat → Bool) (n : Nat) :
    (List.range n).countP (fun i => p (n - 1 - i)) = (List.range n).countP p := by
  have hrev : (List.range n).reverse = (List.range n).map (n - 1 - ·) := by
    simp [List.range_eq_range', List.reverse_range']
  rw [← List.countP_reverse (l := List.range n) (p := p), hrev, List.countP_map]
  rfl

theorem countP_reflect (hn : n ≤ w) (v : BitVec w) :
    (List.range n).countP (fun i => (reflect v n).getLsbD i) = (List.range n).countP (fun i => v.getLsbD i) := by
  rw [← countP_range_mirrored fun i => (reflect v n).getLsbD i]
  refine List.countP_congr fun i hi => ?_
  rw [getLsbD_reflect_mirrored hn v (List.mem_range.1 hi)]

/-- Whether a count is odd is the exclusive or of what is counted. -/
theorem bodd_countP {α : Type} (p : α → Bool) (l : List α) :
    (l.countP p).bodd = l.foldr (fun a odd => p a ^^ odd) false := by
  induction l with
  | nil => simp
  | cons a l ih => cases hp : p a <;> simp [hp, ih]

/-- The fold of R151 tells whether the number of 1 bits is odd (R150). -/
theorem oddParity_eq_bodd_countP (b : Byte) :
    oddParity b = ((List.range 8).countP fun i => b.getLsbD i).bodd := by
  rw [bodd_countP]
  -- both sides are now exclusive ors of the eight bits, in different orders
  simp [oddParity, List.range, List.range.loop, Bool.bne_eq_xor, Bool.xor_comm, Bool.xor_left_comm]

theorem oddParity_reflect (b : Byte) : oddParity (reflect b 8) = oddParity b := by
  rw [oddParity_eq_bodd_countP, countP_reflect le_rfl, ← oddParity_eq_bodd_countP]

/-- Settles O32: a conjunct of the statement is a law of R94, each from the bits of the result or from reflecting
twice. -/
theorem reflectLaws : Obligations.ReflectLaws :=
  ⟨fun _ _ a b hn => reflect_xor hn a b,
    fun _ _ v hn => reflect_mod_two_pow hn v,
    fun _ _ hn => ⟨reflect_bijOn hn, fun _ => reflect_reflect_of_lt hn⟩,
    fun _ _ _ hn => ⟨reflect_two_pow hn, reflect_two_pow_of_le hn⟩,
    fun _ _ hn => ⟨reflect_zero hn, reflect_two_pow_sub_one hn⟩,
    fun _ _ v hn => countP_reflect hn v,
    oddParity_reflect⟩

/-! ## The command (R92) -/

theorem requireCount_within {c : Byte} (s : State) (k : Host.Outcome State Fault Refusal) (hc : c.toNat ≤ 64) :
    requireCount c s k = k :=
  if_neg (Nat.not_lt.2 hc)

theorem requireCount_above {c : Byte} (s : State) (k : Host.Outcome State Fault Refusal) (hc : 64 < c.toNat) :
    requireCount c s k = .next (raise .reflectRange s) :=
  if_pos hc

/-- Settles O15: the two checks of the command in order, then the bits of `reflect` at the 64-bit storage. -/
theorem reflectCommand : Obligations.ReflectCommand := by
  intro c v s
  refine ⟨fun herr => ?_, fun herr hc => ?_, fun herr hc => ?_⟩
  · exact unlessHalted_halted herr
  · exact (unlessHalted_running herr).trans (requireCount_above s _ hc)
  · exact ⟨reflect v c.toNat, fun _ => getLsbD_reflect_mirrored hc v, fun _ => getLsbD_reflect_of_le hc v,
      (unlessHalted_running herr).trans (requireCount_within s _ hc)⟩

end Sys2Proof.Machine
end

section
/-! SUPPORT. The bit-serial divider (41_bitserial_divider.md): the round and its iterates (R100, R101), linearity
(R112) and injectivity (R113), `finalize` (R104, R110), the commands (R106 to R108, R122, R136) and the sequences of
R109 and R140; the statements of 41_bitserial_divider.md settled from them. -/

namespace Sys2Proof.Machine

/-! ## The division round and its iterates (R100, R101) -/

section Divider
variable {w : Nat} (poly : BitVec w)

theorem divRound_of_msb {r : BitVec w} (h : r.msb = true) : divRound poly r = (r <<< 1) ^^^ poly :=
  if_pos h

theorem divRound_of_not_msb {r : BitVec w} (h : r.msb = false) : divRound poly r = r <<< 1 :=
  if_neg (by simp [h])

theorem div8_eq_iterate (r : BitVec w) : div8 poly r = (divRound poly)^[8] r := rfl

theorem toNat_divRound (r : BitVec w) :
    (divRound poly r).toNat =
      if r.toNat.testBit (w - 1) then ((r.toNat <<< 1) % 2 ^ w) ^^^ poly.toNat else (r.toNat <<< 1) % 2 ^ w := by
  have hmsb : r.toNat.testBit (w - 1) = r.msb := by rw [BitVec.testBit_toNat, BitVec.msb_eq_getLsbD_last]
  rw [hmsb]
  cases h : r.msb with
  | true => rw [divRound_of_msb poly h, BitVec.toNat_xor, BitVec.toNat_shiftLeft, if_pos rfl]
  | false => rw [divRound_of_not_msb poly h, BitVec.toNat_shiftLeft, if_neg Bool.false_ne_true]

/-- Bit `i` of a round: of the shifted value, inverted where the top bit lets `POLY` in. -/
theorem getLsbD_divRound (r : BitVec w) (i : Nat) :
    (divRound poly r).getLsbD i = ((r <<< 1).getLsbD i ^^ (r.msb && poly.getLsbD i)) := by
  cases h : r.msb with
  | true => rw [divRound_of_msb poly h, BitVec.getLsbD_xor, Bool.true_and]
  | false => rw [divRound_of_not_msb poly h, Bool.false_and, Bool.xor_false]

/-- The round is linear over GF(2) (R112), since each bit of it is. -/
theorem divRound_xor (a c : BitVec w) : divRound poly (a ^^^ c) = divRound poly a ^^^ divRound poly c := by
  apply BitVec.eq_of_getLsbD_eq
  intro i _
  simp only [getLsbD_divRound, BitVec.getLsbD_xor, BitVec.shiftLeft_xor_distrib, BitVec.msb_xor,
    Bool.and_xor_distrib_right, Bool.xor_assoc, Bool.xor_left_comm]

@[simp] theorem divRound_zero : divRound poly 0#w = 0#w := by
  simp [divRound]

theorem div8_xor (a c : BitVec w) : div8 poly (a ^^^ c) = div8 poly a ^^^ div8 poly c := by
  simp only [div8, divRound_xor]

@[simp] theorem div8_zero : div8 poly 0#w = 0#w := by
  simp only [div8, divRound_zero]

/-- As long as no 1 reaches the top bit, a round is a shift and `POLY` plays no part. -/
theorem iterate_divRound_of_lt {n : Nat} (hn : n ≤ w) {a : BitVec w} (ha : a.toNat < 2 ^ (w - n)) :
    (divRound poly)^[n] a = a <<< n := by
  induction n generalizing a with
  | zero => simp
  | succ n ih =>
    have hpow : 2 ^ (w - n) = 2 * 2 ^ (w - (n + 1)) := by
      rw [← pow_succ', show w - (n + 1) + 1 = w - n by omega]
    have hmsb : a.msb = false := by
      rw [BitVec.msb_eq_false_iff_two_mul_lt]
      have : 2 ^ (w - n) ≤ 2 ^ w := Nat.pow_le_pow_right (by omega) (by omega)
      omega
    have hshift : (a <<< 1).toNat < 2 ^ (w - n) := by
      rw [BitVec.toNat_shiftLeft, Nat.shiftLeft_eq]
      exact (Nat.mod_le _ _).trans_lt (by omega)
    rw [Function.iterate_succ_apply, divRound_of_not_msb poly hmsb, ih (by omega) hshift, ← BitVec.shiftLeft_add,
      Nat.add_comm]

/-- With `POLY[0] = 1` the bit that the shift drops is bit 0 of the result. -/
theorem getLsbD_zero_divRound {poly : BitVec w} (hp : poly.getLsbD 0 = true) (r : BitVec w) :
    (divRound poly r).getLsbD 0 = r.msb := by
  simp [getLsbD_divRound, hp]

/-- With `POLY[0] = 1` only 0 is sent to 0: bit 0 of the result tells the top bit, the shift the others. -/
theorem eq_zero_of_divRound_eq_zero {poly r : BitVec w} (hp : poly.getLsbD 0 = true) (h : divRound poly r = 0#w) :
    r = 0#w := by
  have hmsb : r.msb = false := by rw [← getLsbD_zero_divRound hp, h, BitVec.getLsbD_zero]
  rw [divRound_of_not_msb poly hmsb] at h
  apply BitVec.eq_of_getLsbD_eq
  intro i hi
  rw [BitVec.getLsbD_zero]
  by_cases htop : i = w - 1
  · rw [htop, ← BitVec.msb_eq_getLsbD_last, hmsb]
  · have hbit : (r <<< 1).getLsbD (i + 1) = false := by rw [h, BitVec.getLsbD_zero]
    have hlt : i + 1 < w := by omega
    simpa [hi, hlt] using hbit

theorem divRound_injective {poly : BitVec w} (hp : poly.getLsbD 0 = true) : Function.Injective (divRound poly) := by
  intro a c h
  apply BitVec.xor_eq_zero_iff.1
  apply eq_zero_of_divRound_eq_zero hp
  rw [divRound_xor, h, BitVec.xor_self]

theorem div8_injective {poly : BitVec w} (hp : poly.getLsbD 0 = true) : Function.Injective (div8 poly) :=
  (divRound_injective hp).iterate 8

end Divider

/-- Settles O35: the round on integers, and the eight rounds of `div8` as an iterate. -/
theorem roundShiftsAndXors : Obligations.RoundShiftsAndXors :=
  ⟨fun _ => toNat_divRound, fun _ => div8_eq_iterate⟩

/-! ## The reference step (R102, R103) -/

/-- The byte placed is the number `b << SH` cut to W bits. -/
theorem placeByte_eq_ofNat (w : Nat) (b : Byte) : placeByte w b = BitVec.ofNat w (b.toNat <<< (w - 8)) := by
  apply BitVec.eq_of_toNat_eq
  simp [placeByte, shiftOf, Nat.shiftLeft_eq]

theorem toNat_placeByte {w : Nat} (hw : 8 ≤ w) (b : Byte) : (placeByte w b).toNat = b.toNat * 2 ^ (w - 8) := by
  have hlt : b.toNat * 2 ^ (w - 8) < 2 ^ w := by
    calc b.toNat * 2 ^ (w - 8) < 2 ^ 8 * 2 ^ (w - 8) := Nat.mul_lt_mul_of_pos_right b.isLt (Nat.two_pow_pos _)
      _ = 2 ^ w := by rw [← pow_add, Nat.add_sub_cancel' hw]
  rw [placeByte_eq_ofNat, BitVec.toNat_ofNat, Nat.shiftLeft_eq, Nat.mod_eq_of_lt hlt]

theorem placeByte_injective {w : Nat} (hw : 8 ≤ w) : Function.Injective (placeByte w) := by
  intro b c h
  have hmul : b.toNat * 2 ^ (w - 8) = c.toNat * 2 ^ (w - 8) := by rw [← toNat_placeByte hw, h, toNat_placeByte hw]
  exact BitVec.eq_of_toNat_eq (Nat.eq_of_mul_eq_mul_right (Nat.two_pow_pos _) hmul)

/-- `refin` is its own inverse, whether it reflects or not. -/
theorem refin_refin (P : Params) (b : Byte) : refin P (refin P b) = b := by
  unfold refin
  split
  · exact reflect_reflect_of_lt le_rfl b.isLt
  · rfl

theorem refin_injective (P : Params) : Function.Injective (refin P) :=
  Function.Involutive.injective (refin_refin P)

theorem refStep_eq_xor (P : Params) (r : BitVec P.W) (b : Byte) :
    refStep P r b = div8 (poly P) r ^^^ div8 (poly P) (placeByte P.W (refin P b)) :=
  div8_xor (poly P) r _

theorem refStep_zero (P : Params) (b : Byte) : refStep P 0 b = div8 (poly P) (placeByte P.W (refin P b)) := by
  simp [refStep]

/-- What a step does to the remainder, the byte's own part taken off. -/
theorem refStep_xor_refStep_zero (P : Params) (r : BitVec P.W) (b : Byte) :
    refStep P r b ^^^ refStep P 0 b = div8 (poly P) r := by
  rw [refStep_eq_xor, refStep_zero, BitVec.xor_assoc, BitVec.xor_self, BitVec.xor_zero]

/-- Settles O36: the round is linear, so its iterate is, and a step is `div8` up to the byte's own part; below
`2^(W - 8)` no round sees a 1 in the top bit. -/
theorem dividerIsLinear : Obligations.DividerIsLinear := by
  refine ⟨fun _ => divRound_xor, fun _ => div8_xor, fun P a c b => ?_, fun _ => div8_zero, refStep_eq_xor,
    fun w poly a hw ha => iterate_divRound_of_lt poly hw ha⟩
  simp only [refStep_xor_refStep_zero, div8_xor]

/-- The low bit of the generator, which legality asks for (R8). -/
theorem getLsbD_zero_poly {P : Params} (h : P.legal = true) : (poly P).getLsbD 0 = true := by
  obtain ⟨_, _, _, _, hbit⟩ := (legal_iff P).1 h
  have hw : 0 < P.W := Nat.lt_of_lt_of_le (by omega) (legal_width_ge h)
  simp [poly, hw, hbit]

section LegalParams
variable {P : Params} (hP : P.legal = true)
include hP

theorem refStep_injective_rem (b : Byte) : Function.Injective fun r => refStep P r b :=
  fun _ _ h => BitVec.xor_left_inj _ |>.1 (div8_injective (getLsbD_zero_poly hP) h)

theorem refStep_injective_byte (r : BitVec P.W) : Function.Injective (refStep P r) :=
  fun _ _ h => refin_injective P (placeByte_injective (legal_width_ge hP)
    (BitVec.xor_right_inj _ |>.1 (div8_injective (getLsbD_zero_poly hP) h)))

theorem refBytes_injective (m : List Byte) : Function.Injective fun r => refBytes P r m := by
  induction m with
  | nil => exact fun _ _ h => h
  | cons b m ih => exact ih.comp (refStep_injective_rem hP b)

end LegalParams

/-- The bytes of `m₁`, then those of `m₂`. -/
theorem refBytes_append (P : Params) (r : BitVec P.W) (m₁ m₂ : List Byte) :
    refBytes P r (m₁ ++ m₂) = refBytes P (refBytes P r m₁) m₂ :=
  List.foldl_append

@[simp] theorem refBytes_nil (P : Params) (r : BitVec P.W) : refBytes P r [] = r := rfl

@[simp] theorem refBytes_cons (P : Params) (r : BitVec P.W) (b : Byte) (m : List Byte) :
    refBytes P r (b :: m) = refBytes P (refStep P r b) m := rfl

/-! ## `finalize` (R104, R110) and the reference CRC (R105, R111, R113, R165) -/

/-- The reflection of `finalize`, done if `REFOUT` is set: `unrefl` of R110. -/
def reflectOut (P : Params) (r : BitVec P.W) : BitVec P.W :=
  if P.REFOUT then reflect r P.W else r

theorem finalize_eq (P : Params) (r : BitVec P.W) : finalize P r = reflectOut P r ^^^ xorout P := rfl

theorem reflectOut_reflectOut (P : Params) (r : BitVec P.W) : reflectOut P (reflectOut P r) = r := by
  unfold reflectOut
  split
  · exact reflect_reflect_of_lt le_rfl r.isLt
  · rfl

/-- The inverse of R110. -/
theorem reflectOut_finalize_xor (P : Params) (r : BitVec P.W) : reflectOut P (finalize P r ^^^ xorout P) = r := by
  rw [finalize_eq, BitVec.xor_assoc, BitVec.xor_self, BitVec.xor_zero, reflectOut_reflectOut]

theorem finalize_reflectOut_xor (P : Params) (y : BitVec P.W) : finalize P (reflectOut P (y ^^^ xorout P)) = y := by
  rw [finalize_eq, reflectOut_reflectOut, BitVec.xor_assoc, BitVec.xor_self, BitVec.xor_zero]

theorem finalize_bijective (P : Params) : Function.Bijective (finalize P) :=
  Function.bijective_iff_has_inverse.2
    ⟨fun y => reflectOut P (y ^^^ xorout P), reflectOut_finalize_xor P, finalize_reflectOut_xor P⟩

/-- Settles O37: `reflectOut` and the XOR are each their own inverse. -/
theorem finalizeIsBijective : Obligations.FinalizeIsBijective :=
  fun P => ⟨finalize_bijective P, reflectOut_finalize_xor P⟩

/-- Settles O38: with no byte both paths finalize `INIT`; the CRC-8 value is computed. -/
theorem emptyMessageIsFinalizedInit : Obligations.EmptyMessageIsFinalizedInit :=
  ⟨fun _ => rfl, fun _ _ => rfl, by decide⟩

/-- Inverting one bit of a byte gives another byte. -/
theorem xor_two_pow_ne (b : Byte) {i : Nat} (hi : i < 8) : b ^^^ BitVec.ofNat 8 (2 ^ i) ≠ b := by
  intro h
  have hbit : (b ^^^ BitVec.ofNat 8 (2 ^ i)).getLsbD i = b.getLsbD i := by rw [h]
  rw [BitVec.getLsbD_xor, getLsbD_ofNat_two_pow, decide_eq_true hi] at hbit
  simp at hbit

/-- Settles O39: another byte gives another remainder, and neither the bytes after it nor `finalize` merge two
remainders. -/
theorem singleBitErrorDetected : Obligations.SingleBitErrorDetected := by
  intro P m₁ m₂ b i hP hi h
  have hrem := (finalize_bijective P).injective h
  rw [refBytes_append, refBytes_append, refBytes_cons, refBytes_cons] at hrem
  exact xor_two_pow_ne b hi (refStep_injective_byte hP _ (refBytes_injective hP m₂ hrem))

/-- Without reflection and final XOR the CRC is the remainder itself. -/
theorem crcRef_eq_refBytes {P : Params} (hout : P.REFOUT = false) (hxor : P.XOROUT = 0) (m : List Byte) :
    crcRef P m = refBytes P (initial P) m := by
  simp [crcRef, finalize, xorout, hout, hxor]

/-- A step ends in 0 exactly when the byte placed at the top is the whole remainder. -/
theorem refStep_eq_zero_iff {P : Params} (hP : P.legal = true) (r : BitVec P.W) (b : Byte) :
    refStep P r b = 0 ↔ r = placeByte P.W (refin P b) := by
  calc refStep P r b = 0 ↔ refStep P r b = div8 (poly P) 0#P.W := by rw [div8_zero]; rfl
    _ ↔ r ^^^ placeByte P.W (refin P b) = 0#P.W := (div8_injective (getLsbD_zero_poly hP)).eq_iff
    _ ↔ r = placeByte P.W (refin P b) := BitVec.xor_eq_zero_iff

/-- Settles O46: the last step ends in 0 exactly when the byte fed is the remainder, which is the CRC. -/
theorem zeroResidueCheck : Obligations.ZeroResidueCheck := by
  refine ⟨fun P m c hP hW hin hout hxor => ⟨crcRef_eq_refBytes hout hxor m, ?_⟩, by decide +kernel⟩
  have hplace : (placeByte P.W (refin P c)).toNat = c.toNat := by
    simp [refin, hin, toNat_placeByte (legal_width_ge hP), hW]
  rw [crcRef_eq_refBytes hout hxor, crcRef_eq_refBytes hout hxor, refBytes_append, refBytes_cons, refBytes_nil,
    refStep_eq_zero_iff hP, ← BitVec.toNat_inj, hplace]

/-! ## The commands (R106 to R108, R122, R136) -/

section Running
variable {s : State}

theorem exec_crcInit_running (herr : s.status.err = false) :
    exec .crcInit s = .next (ok 0 (setRem s (initial s.params))) :=
  unlessHalted_running herr

theorem exec_refByte_running (b : Byte) (herr : s.status.err = false) :
    exec (.refByte b) s = .next (ok 0 (setRem s (refStep s.params (remOf s) b))) :=
  unlessHalted_running herr

theorem exec_crcFinal_running (herr : s.status.err = false) :
    exec .crcFinal s = .next (ok (zext64 (finalize s.params (remOf s))) s) :=
  unlessHalted_running herr

theorem exec_buildTable_running (herr : s.status.err = false) :
    exec .buildTable s = .next (ok 0 { s with
      table := buildAll s.params s.table
      status := markTableValid s.status }) :=
  unlessHalted_running herr

theorem exec_fastByte_notBuilt (b : Byte) (herr : s.status.err = false) (htv : s.status.tv = false) :
    exec (.fastByte b) s = .next (raise .tableNotBuilt s) :=
  (unlessHalted_running herr).trans (requireTable_invalid htv)

theorem withEntry_written {i : Byte} {e : Word} {k : BitVec s.params.W → Host.Outcome State Fault Refusal}
    (h : tblRead s.table i = some e) : withEntry s i k = k (e.setWidth s.params.W) := by
  simp [withEntry, h]

/-- FAST_BYTE with a W-bit value in the entry it reads. -/
theorem exec_fastByte_running {b : Byte} {e : BitVec s.params.W} (hl : s.params.legal = true)
    (herr : s.status.err = false) (htv : s.status.tv = true)
    (he : tblRead s.table (tableIndex s.params (remOf s) b) = some (zext64 e)) :
    exec (.fastByte b) s = .next (ok 0 (setRem s (fastRem e (remOf s)))) := by
  rw [exec, execFastByte, unlessHalted_running herr, requireTable_valid htv, withEntry_written he,
    setWidth_zext64 (legal_width_le hl)]

end Running

/-- Settles O17: the halted check, then the write of `INIT`. -/
theorem crcInitCommand : Obligations.CrcInitCommand := by
  intro s hl
  refine ⟨fun herr => unlessHalted_halted herr, fun herr => ?_⟩
  rw [exec_crcInit_running herr, ← zext64_initial hl]
  rfl

/-- Settles O18: the halted check, then the step with its byte placed by a shift of integers. -/
theorem refByteCommand : Obligations.RefByteCommand := by
  intro b s _
  refine ⟨fun herr => unlessHalted_halted herr, fun herr => ?_⟩
  rw [exec_refByte_running b herr, refStep, placeByte_eq_ofNat, div8_eq_iterate]
  rfl

theorem zext64_xor {w : Nat} (a b : BitVec w) : zext64 (a ^^^ b) = zext64 a ^^^ zext64 b :=
  BitVec.setWidth_xor

/-- `XOROUT` of a legal instance is a W-bit value. -/
theorem zext64_xorout {P : Params} (h : P.legal = true) : zext64 (xorout P) = P.XOROUT := by
  obtain ⟨_, _, _, hxor, _⟩ := (legal_iff P).1 h
  exact zext64_setWidth_of_fits (decide_eq_true hxor)

/-- Settles O19: the halted check, then the two parts of `finalize` zero-extended apart. -/
theorem crcFinalCommand : Obligations.CrcFinalCommand := by
  intro s hl
  refine ⟨fun herr => unlessHalted_halted herr, fun herr => ?_⟩
  refine ⟨zext64 (finalize s.params (remOf s)), ?_, of_decide_eq_true (fits_zext64 _), exec_crcFinal_running herr⟩
  rw [finalize, zext64_xor, zext64_xorout hl]

/-- Settles O21: the halted check, then a build after which every entry reads as `tbl`. -/
theorem buildTableCommand : Obligations.BuildTableCommand := by
  intro s _
  refine ⟨fun herr => unlessHalted_halted herr, fun herr => ?_⟩
  refine ⟨buildAll s.params s.table, exec_buildTable_running herr, fun d => ?_⟩
  rw [tblRead_buildAll, tbl, placeByte_eq_ofNat, div8_eq_iterate]

theorem toNat_topByte {w : Nat} (hw : 8 ≤ w) (r : BitVec w) : (topByte r).toNat = r.toNat >>> (w - 8) := by
  have hlt : r.toNat >>> (w - 8) < 2 ^ 8 := by
    rw [Nat.shiftRight_eq_div_pow]
    apply Nat.div_lt_of_lt_mul
    rw [← pow_add, Nat.sub_add_cancel hw]
    exact r.isLt
  rw [topByte, shiftOf, BitVec.toNat_setWidth, BitVec.toNat_ushiftRight, Nat.mod_eq_of_lt hlt]

/-- The index of R135 on integers. -/
theorem toNat_tableIndex {P : Params} (hw : 8 ≤ P.W) (r : BitVec P.W) (b : Byte) :
    (tableIndex P r b).toNat = (refin P b).toNat ^^^ (r.toNat >>> (P.W - 8)) := by
  rw [tableIndex, BitVec.toNat_xor, toNat_topByte hw]

/-- Settles O23: the halted and the table check, then the read at the index that its equation on integers fixes. -/
theorem fastByteCommand : Obligations.FastByteCommand := by
  intro b s hl
  refine ⟨fun herr => unlessHalted_halted herr, exec_fastByte_notBuilt b, fun idx e herr htv hidx he => ?_⟩
  have hindex : idx = tableIndex s.params (remOf s) b :=
    BitVec.eq_of_toNat_eq (hidx.trans (toNat_tableIndex (legal_width_ge hl) (remOf s) b).symm)
  exact exec_fastByte_running hl herr htv (hindex ▸ he)

/-! ## Command sequences: CRC_INIT, a command per byte, a last command (R81, R83, R85) -/

/-- The state in which the last `k` commands each answered (0x00, 0) and left nothing changed but `REM`, now `r`. -/
def answeredOk (s : State) (r : BitVec s.params.W) (k : Nat) : State :=
  { s with
    rem := zext64 r
    responses := List.replicate k ⟨0x00, 0⟩ ++ s.responses }

theorem remOf_answeredOk {s : State} (hl : s.params.legal = true) (r : BitVec s.params.W) (k : Nat) :
    remOf (answeredOk s r k) = r :=
  setWidth_zext64 (legal_width_le hl) r

/-- One more answer (0x00, 0) that writes `REM`. -/
theorem ok_setRem_answeredOk (s : State) (r r' : BitVec s.params.W) (k : Nat) :
    ok 0 (setRem (answeredOk s r k) r') = answeredOk s r' (k + 1) := rfl

theorem steps_one (s : State) : steps 1 s = step s := by
  simp only [steps]
  cases step s <;> rfl

/-- The next step of a machine with a sequence issued executes its first command, the others pending. -/
theorem step_issue_cons {s : State} (hl : s.params.legal = true) (i : Instr) (is : List Instr) :
    step (issue (i :: is) s) = exec i (issue is s) :=
  step_decoded hl (issue_cons_events i is s) (decodeAfterEncode i)

/-- The command `i` in any state of the run of `s`, whatever else is issued, answers (0x00, 0) and takes `REM`
from `r` to `r'`. -/
def UpdatesRem (s : State) (i : Instr) (r r' : BitVec s.params.W) : Prop :=
  ∀ (is : List Instr) (k : Nat),
    exec i (issue is (answeredOk s r k)) = .next (issue is (answeredOk s r' (k + 1)))

section Sequences
variable {s : State} {α : Type} {cmd : α → Instr} {upd : BitVec s.params.W → α → BitVec s.params.W}

/-- One command per item of `m`, each taking `REM` on by `upd`. -/
theorem steps_issue_map (hl : s.params.legal = true) (hupd : ∀ r a, UpdatesRem s (cmd a) r (upd r a))
    (m : List α) (is : List Instr) (n k : Nat) (r : BitVec s.params.W) :
    steps (m.length + n) (issue (m.map cmd ++ is) (answeredOk s r k)) =
      steps n (issue is (answeredOk s (m.foldl upd r) (k + m.length))) := by
  induction m generalizing r k with
  | nil => simp
  | cons a m ih =>
    have hstep : step (issue (cmd a :: (m.map cmd ++ is)) (answeredOk s r k)) =
        .next (issue (m.map cmd ++ is) (answeredOk s (upd r a) (k + 1))) :=
      (step_issue_cons (s := answeredOk s r k) hl _ _).trans (hupd r a _ k)
    rw [List.map_cons, List.cons_append, List.length_cons, Nat.add_right_comm, steps_succ hstep, ih, List.foldl_cons,
      Nat.add_right_comm k, Nat.add_assoc k]

/-- CRC_INIT, one command per item of `m`, and a last command: the run ends in the last command's answer. -/
theorem steps_issue_crcSequence (hl : s.params.legal = true) (herr : s.status.err = false)
    (hupd : ∀ r a, UpdatesRem s (cmd a) r (upd r a)) (m : List α) (last : Instr) :
    steps (m.length + 2) (issue (.crcInit :: (m.map cmd ++ [last])) s) =
      exec last (answeredOk s (m.foldl upd (initial s.params)) (m.length + 1)) := by
  have hinit : step (issue (.crcInit :: (m.map cmd ++ [last])) s) =
      .next (issue (m.map cmd ++ [last]) (answeredOk s (initial s.params) 1)) :=
    (step_issue_cons hl _ _).trans (exec_crcInit_running (s := issue (m.map cmd ++ [last]) s) herr)
  rw [steps_succ hinit, steps_issue_map hl hupd, steps_one, Nat.add_comm 1]
  exact step_issue_cons (s := answeredOk s _ _) hl last []

theorem updatesRem_refByte (hl : s.params.legal = true) (herr : s.status.err = false) (r : BitVec s.params.W)
    (b : Byte) : UpdatesRem s (.refByte b) r (refStep s.params r b) := by
  intro is k
  have h := exec_refByte_running (s := issue is (answeredOk s r k)) b herr
  rwa [show remOf (issue is (answeredOk s r k)) = r from remOf_answeredOk hl r k] at h

/-- CRC_FINAL at the end of a sequence returns the finalized remainder. -/
theorem exec_crcFinal_answeredOk (hl : s.params.legal = true) (herr : s.status.err = false) (r : BitVec s.params.W)
    (k : Nat) :
    exec .crcFinal (answeredOk s r k) = .next (ok (zext64 (finalize s.params r)) (answeredOk s r k)) := by
  have h := exec_crcFinal_running (s := answeredOk s r k) herr
  rwa [remOf_answeredOk hl] at h

end Sequences

/-- Settles O47: the sequence's run with REF_BYTE as the command per byte, and CRC_FINAL's answer at its end. -/
theorem computeReferenceRuns : Obligations.ComputeReferenceRuns :=
  fun _ m hl herr => (steps_issue_crcSequence hl herr (updatesRem_refByte hl herr) m .crcFinal).trans
    (exec_crcFinal_answeredOk hl herr _ _)

/-- Settles O49: without a byte the two sequences are the same commands, and the run is the reference path's. -/
theorem emptyFastMessageNeedsNoTable : Obligations.EmptyFastMessageNeedsNoTable := by
  intro s hl herr
  refine ⟨rfl, ?_⟩
  rw [← zext64_initial hl]
  exact computeReferenceRuns s [] hl herr

end Sys2Proof.Machine
end

section
/-! SUPPORT. The lookup table (42_table_rom.md): the structure of `tbl` (R121, R128), what a valid table holds (R127),
a build over one (R123) and TBL_RD (R124); the statements of 42_table_rom.md settled from them. -/

namespace Sys2Proof.Machine

/-! ## The structure of `tbl` (R121, R128) -/

/-- Settles O40: no other constant of `P` stands in `tbl`. -/
theorem tableDependsOnWidthAndPoly : Obligations.TableDependsOnWidthAndPoly := by
  rintro ⟨W, POLY, _, _, _, _⟩ ⟨_, _, _, _, _, _⟩ d (rfl : W = _) (rfl : POLY = _)
  rfl

theorem placeByte_xor (w : Nat) (a c : Byte) : placeByte w (a ^^^ c) = placeByte w a ^^^ placeByte w c := by
  simp only [placeByte, BitVec.setWidth_xor, BitVec.shiftLeft_xor_distrib]

theorem tbl_xor (P : Params) (a c : Byte) : tbl P (a ^^^ c) = tbl P a ^^^ tbl P c := by
  simp only [tbl, placeByte_xor, div8_xor]

theorem tbl_zero (P : Params) : tbl P 0 = 0 := by
  simp [tbl, placeByte]

/-- A round on the top bit alone: the shift drops it and lets `POLY` in. -/
theorem divRound_twoPow_top {w : Nat} (hw : 0 < w) (poly : BitVec w) :
    divRound poly (BitVec.twoPow w (w - 1)) = poly := by
  have hmsb : (BitVec.twoPow w (w - 1)).msb = true := by simp [BitVec.msb_eq_getLsbD_last, hw]
  have hshift : BitVec.twoPow w (w - 1) <<< 1 = 0#w := by
    rw [BitVec.twoPow, ← BitVec.shiftLeft_add, Nat.sub_add_cancel hw, BitVec.shiftLeft_eq_zero le_rfl]
  rw [divRound_of_msb poly hmsb, hshift, BitVec.zero_xor]

/-- From the byte 1, placed at bit `W - 8`, seven rounds only shift; the eighth meets the top bit. -/
theorem div8_placeByte_one {w : Nat} (hw : 8 ≤ w) (poly : BitVec w) : div8 poly (placeByte w 1) = poly := by
  have hplace : placeByte w 1 = BitVec.twoPow w (w - 8) := by
    apply BitVec.eq_of_toNat_eq
    simp [toNat_placeByte hw, BitVec.toNat_twoPow_of_lt (show w - 8 < w by omega)]
  have hseven : (divRound poly)^[7] (BitVec.twoPow w (w - 8)) = BitVec.twoPow w (w - 8) <<< 7 := by
    apply iterate_divRound_of_lt poly (by omega)
    rw [BitVec.toNat_twoPow_of_lt (by omega)]
    exact Nat.pow_lt_pow_right (by omega) (by omega)
  have htop : BitVec.twoPow w (w - 8) <<< 7 = BitVec.twoPow w (w - 1) := by
    rw [BitVec.twoPow, ← BitVec.shiftLeft_add, show w - 8 + 7 = w - 1 by omega, BitVec.twoPow]
  rw [div8_eq_iterate, Function.iterate_succ_apply', hplace, hseven, htop, divRound_twoPow_top (by omega)]

theorem tbl_one {P : Params} (hP : P.legal = true) : tbl P 1 = poly P :=
  div8_placeByte_one (legal_width_ge hP) (poly P)

theorem tbl_injective {P : Params} (hP : P.legal = true) : Function.Injective (tbl P) :=
  (div8_injective (getLsbD_zero_poly hP)).comp (placeByte_injective (legal_width_ge hP))

/-- With `W = 8` the 256 different entries are 256 bytes, and so all of them. -/
theorem exists_tbl_eq_byte {P : Params} (hP : P.legal = true) (hW : P.W = 8) (y : Byte) :
    ∃ d, (tbl P d).toNat = y.toNat := by
  have hinj : Function.Injective fun d => (tbl P d).cast hW := by
    intro a c h
    exact tbl_injective hP (BitVec.eq_of_toNat_eq (by simpa using congrArg BitVec.toNat h))
  obtain ⟨d, hd⟩ := Finite.injective_iff_surjective.1 hinj y
  exact ⟨d, by simpa using congrArg BitVec.toNat hd⟩

/-- Settles O41: linear because `div8` and the placing of a byte are, injective because both are, and onto by counting;
the eight generators are computed. -/
theorem tableStructure : Obligations.TableStructure :=
  ⟨fun P hP => ⟨tbl_zero P, tbl_one hP, tbl_xor P, fun _ _ h => tbl_injective hP h, exists_tbl_eq_byte hP,
    fun d => Nat.le_sub_one_of_lt (tbl P d).isLt⟩, by decide⟩

/-! ## What a valid table holds (R127) -/

/-- The reference CRC of one byte, with `INIT` and `XOROUT` 0 and the output not reflected. -/
theorem crcRef_singleton {P : Params} (hinit : P.INIT = 0) (hxor : P.XOROUT = 0) (hout : P.REFOUT = false) (b : Byte) :
    crcRef P [b] = tbl P (refin P b) := by
  have hzero : initial P = 0 := by simp [initial, hinit]
  rw [crcRef_eq_refBytes hout hxor, refBytes_cons, refBytes_nil, hzero, refStep_zero, tbl]

/-- Settles O42: a valid table holds `tbl`, which the parameters overridden here do not touch, at the byte as `refin`
leaves it. -/
theorem tableSelfConsistent : Obligations.TableSelfConsistent := by
  refine ⟨fun s h htv d => ⟨h.tableMatches htv d, ?_⟩, fun s h htv b => ?_⟩
  · rw [crcRef_singleton rfl rfl rfl]
    exact h.tableMatches htv d
  · rw [crcRef_singleton rfl rfl rfl]
    exact h.tableMatches htv (reflect b 8)

/-! ## A build over a valid table (R123) -/

theorem markTableValid_of_tv {st : Status} (h : st.tv = true) : markTableValid st = st := by
  rw [markTableValid, ← h]

theorem buildAll_of_matches {P : Params} {m : Memory} (hwf : m.wf = true)
    (h : ∀ d : Byte, tblRead m d = some (zext64 (tbl P d))) : buildAll P m = m :=
  memory_ext (buildAll_keeps_wf P hwf) hwf fun d => (tblRead_buildAll P m d).trans (h d).symm

/-- BUILD_TABLE over a valid table in canonical form responds and does nothing else. -/
theorem exec_buildTable_valid {s : State} (hwf : s.table.wf = true) (hm : TableMatches s) (htv : s.status.tv = true)
    (herr : s.status.err = false) : exec .buildTable s = .next (ok 0 s) := by
  rw [exec_buildTable_running herr, buildAll_of_matches hwf (hm htv), markTableValid_of_tv htv]

/-- Settles O58: a build leaves a valid table in canonical form, and a build over one only responds. -/
theorem rebuildIsIdempotent : Obligations.RebuildIsIdempotent := by
  refine ⟨fun s t hwf herr h => ?_, fun s h htv herr => exec_buildTable_valid h.tableWf h.tableMatches htv herr⟩
  rw [exec_buildTable_running herr] at h
  cases h
  have hwf' : (buildAll s.params s.table).wf = true := buildAll_keeps_wf s.params hwf
  exact ⟨hwf', rfl, exec_buildTable_valid hwf' (fun _ => tblRead_buildAll s.params s.table) rfl herr⟩

/-! ## TBL_RD (R124) -/

/-- Settles O22: the halted and the table check, then the read of a W-bit entry. -/
theorem tblRdCommand : Obligations.TblRdCommand := by
  intro i s hl
  refine ⟨fun herr => unlessHalted_halted herr, fun herr htv => ?_, fun e herr htv he => ?_⟩
  · exact (unlessHalted_running herr).trans (requireTable_invalid htv)
  · rw [exec, execTblRd, unlessHalted_running herr, requireTable_valid htv, withEntry_written he,
      setWidth_zext64 (legal_width_le hl)]
    rfl

end Sys2Proof.Machine
end

section
/-! SUPPORT. The table-driven engine (43_table_engine.md): one fast step on integers (R135), the two paths' agreement
per step and per message (R141, R142), and the sequences that use FAST_BYTE (R139, R143); the statements of
43_table_engine.md settled from them. -/

namespace Sys2Proof.Machine

/-! ## One fast step (R135) -/

/-- The new remainder of R135 on integers. -/
theorem toNat_fastRem {w : Nat} (entry r : BitVec w) :
    (fastRem entry r).toNat = entry.toNat ^^^ ((r.toNat <<< 8) % 2 ^ w) := by
  rw [fastRem, BitVec.toNat_xor, BitVec.toNat_shiftLeft]

/-- Where a remainder has no more than 8 bits, the shift drops all of it. -/
theorem fastRem_of_width_le {w : Nat} (hw : w ≤ 8) (entry r : BitVec w) : fastRem entry r = entry := by
  rw [fastRem, BitVec.shiftLeft_eq_zero hw, BitVec.xor_zero]

/-- Settles O43: the index and the new remainder of the step, each on integers. -/
theorem fastStepFormula : Obligations.FastStepFormula :=
  fun P _ r b hP => ⟨tableIndex P r b, toNat_tableIndex (legal_width_ge hP) r b, toNat_fastRem _ r,
    fun hW => fastRem_of_width_le hW.le _ r⟩

/-! ## One fast step is one reference step (R141) -/

/-- The top byte of a remainder put back at the top: the remainder with its low bits cleared. -/
theorem placeByte_topByte {w : Nat} (hw : 8 ≤ w) (r : BitVec w) :
    placeByte w (topByte r) = (r >>> (w - 8)) <<< (w - 8) := by
  rw [placeByte_eq_ofNat, toNat_topByte hw]
  apply BitVec.eq_of_toNat_eq
  simp

/-- With its top byte taken off, a remainder is below `2^(W - 8)`. -/
theorem toNat_xor_placeByte_topByte_lt {w : Nat} (hw : 8 ≤ w) (r : BitVec w) :
    (r ^^^ placeByte w (topByte r)).toNat < 2 ^ (w - 8) := by
  apply Nat.lt_pow_two_of_testBit
  intro i hi
  rw [BitVec.testBit_toNat, BitVec.getLsbD_xor, placeByte_topByte hw, BitVec.getLsbD_shiftLeft,
    BitVec.getLsbD_ushiftRight, Nat.add_sub_cancel' hi]
  by_cases hlt : i < w
  · simp [hlt, hi]
  · simp [hlt, BitVec.getLsbD_of_ge r i (by omega)]

theorem placeByte_shiftLeft_eight {w : Nat} (hw : 8 ≤ w) (b : Byte) : placeByte w b <<< 8 = 0#w := by
  rw [placeByte, shiftOf, ← BitVec.shiftLeft_add, Nat.sub_add_cancel hw, BitVec.shiftLeft_eq_zero le_rfl]

/-- Eight rounds divide the top byte and only shift the bits below it. -/
theorem div8_eq_div8_topByte_xor {w : Nat} (hw : 8 ≤ w) (poly r : BitVec w) :
    div8 poly r = div8 poly (placeByte w (topByte r)) ^^^ (r <<< 8) := by
  have hlow : div8 poly (r ^^^ placeByte w (topByte r)) = r <<< 8 := by
    rw [div8_eq_iterate, iterate_divRound_of_lt poly hw (toNat_xor_placeByte_topByte_lt hw r),
      BitVec.shiftLeft_xor_distrib, placeByte_shiftLeft_eight hw, BitVec.xor_zero]
  rw [← hlow, div8_xor, BitVec.xor_comm (div8 poly r), ← BitVec.xor_assoc, BitVec.xor_self, BitVec.zero_xor]

/-- R141: the entry read holds the byte's and the top byte's parts of the division; the shift gives the rest. -/
theorem fastStep_tbl {P : Params} (hP : P.legal = true) (r : BitVec P.W) (b : Byte) :
    fastStep P (tbl P) r b = refStep P r b := by
  calc fastStep P (tbl P) r b
      = tbl P (refin P b) ^^^ tbl P (topByte r) ^^^ (r <<< 8) := by rw [fastStep, fastRem, tableIndex, tbl_xor]
    _ = tbl P (refin P b) ^^^ div8 (poly P) r := by
      rw [div8_eq_div8_topByte_xor (legal_width_ge hP) (poly P) r, BitVec.xor_assoc, ← tbl]
    _ = refStep P r b := by rw [refStep_eq_xor, BitVec.xor_comm, tbl]

/-- Settles O44: a table equal to `tbl` at every index is `tbl`. -/
theorem stepEquivalence : Obligations.StepEquivalence := by
  intro P T hP hT r b
  rw [funext hT, fastStep_tbl hP]

/-! ## Whole messages (R142) -/

theorem fastBytes_tbl {P : Params} (hP : P.legal = true) (r : BitVec P.W) (m : List Byte) :
    fastBytes P (tbl P) r m = refBytes P r m := by
  rw [fastBytes, refBytes, funext fun r => funext (fastStep_tbl hP r)]

/-- A W-bit value is told from another when both are held in 64 bits. -/
theorem zext64_injective {w : Nat} (hw : w ≤ 64) : Function.Injective (zext64 (w := w)) :=
  Function.LeftInverse.injective (g := BitVec.setWidth w) (setWidth_zext64 hw)

/-- The W-bit values that a valid table holds are `tbl`. -/
theorem eq_tbl_of_table {s : State} {T : Byte → BitVec s.params.W} (h : Inv s) (htv : s.status.tv = true)
    (hT : ∀ d, tblRead s.table d = some (zext64 (T d))) : T = tbl s.params := by
  funext d
  exact zext64_injective (legal_width_le h.legal) (Option.some.inj ((hT d).symm.trans (h.tableMatches htv d)))

/-- Settles O45: the table held is `tbl`, with which the two paths agree byte by byte. -/
theorem oracleEquivalence : Obligations.OracleEquivalence := by
  intro s T h htv hT m
  rw [eq_tbl_of_table h htv hT, crcFast, crcRef, fastBytes_tbl h.legal]

/-! ## Command sequences with FAST_BYTE (R139, R143) -/

section Sequences
variable {s : State} (hl : s.params.legal = true) (herr : s.status.err = false) (htv : s.status.tv = true)
include hl herr htv

theorem updatesRem_fastByte {T : Byte → BitVec s.params.W} (hT : ∀ d, tblRead s.table d = some (zext64 (T d)))
    (r : BitVec s.params.W) (b : Byte) : UpdatesRem s (.fastByte b) r (fastStep s.params T r b) := by
  intro is k
  have hrem : remOf (issue is (answeredOk s r k)) = r := remOf_answeredOk hl r k
  have h := exec_fastByte_running (s := issue is (answeredOk s r k)) (b := b) hl herr htv (hT _)
  rwa [hrem] at h

/-- Over a table that holds `tbl`, the byte command of either path takes the reference step. -/
theorem updatesRem_byteCommand (hT : ∀ d, tblRead s.table d = some (zext64 (tbl s.params d)))
    (r : BitVec s.params.W) (p : Bool × Byte) :
    UpdatesRem s (byteCommand p.1 p.2) r (refStep s.params r p.2) := by
  obtain ⟨fast, b⟩ := p
  cases fast with
  | false => exact updatesRem_refByte hl herr r b
  | true =>
    rw [← fastStep_tbl hl]
    exact updatesRem_fastByte hl herr htv hT r b

end Sequences

/-- Settles O48: the sequence's run with FAST_BYTE as the command per byte, and CRC_FINAL's answer at its end. -/
theorem computeFastRuns : Obligations.ComputeFastRuns :=
  fun _ _ m hl herr htv hT => (steps_issue_crcSequence hl herr (updatesRem_fastByte hl herr htv hT) m .crcFinal).trans
    (exec_crcFinal_answeredOk hl herr _ _)

/-- Settles O50: a valid table holds `tbl`, so the run with either command per byte is the reference path's. -/
theorem mixedPathsAgree : Obligations.MixedPathsAgree := by
  intro s m h herr htv
  have hrun := steps_issue_crcSequence h.legal herr
    (updatesRem_byteCommand h.legal herr htv (h.tableMatches htv)) m .crcFinal
  rw [exec_crcFinal_answeredOk h.legal herr, ← List.foldl_map (f := Prod.snd) (g := refStep s.params)] at hrun
  exact hrun

end Sys2Proof.Machine
end

section
/-! SUPPORT. The parity checker (44_parity.md): the fold as the exclusive or of the eight bits and the count of 1 bits
(R150), the laws of R154 and the command (R152); the statements of 44_parity.md settled from them. -/

namespace Sys2Proof.Machine

/-! ## What the fold computes (R150, R151) -/

/-- One fold step XORs the bit `k` places up into each bit. -/
theorem getLsbD_xor_ushiftRight {w : Nat} (x : BitVec w) (k i : Nat) :
    (x ^^^ (x >>> k)).getLsbD i = (x.getLsbD i ^^ x.getLsbD (k + i)) := by
  rw [BitVec.getLsbD_xor, BitVec.getLsbD_ushiftRight]

/-- The folds by 4, 2 and 1 gather all eight bits in bit 0. -/
theorem oddParity_eq_xor (b : Byte) :
    oddParity b = (b.getLsbD 7 ^^ b.getLsbD 6 ^^ b.getLsbD 5 ^^ b.getLsbD 4 ^^
      b.getLsbD 3 ^^ b.getLsbD 2 ^^ b.getLsbD 1 ^^ b.getLsbD 0) := by
  simp only [oddParity, getLsbD_xor_ushiftRight, Nat.reduceAdd, Bool.xor_comm, Bool.xor_assoc, Bool.xor_left_comm]

theorem oddParity_iff_countP_mod_two (b : Byte) :
    oddParity b = true ↔ ((List.range 8).countP fun i => b.getLsbD i) % 2 = 1 := by
  rw [oddParity_eq_bodd_countP, Nat.mod_two_of_bodd, Bool.toNat_eq_one]

/-- Settles O33: the parity of the number of 1 bits, and the bits that the fold gathers. -/
theorem parityCountsOnes : Obligations.ParityCountsOnes :=
  fun b => ⟨oddParity_iff_countP_mod_two b, oddParity_eq_xor b⟩

/-! ## The laws of R154 -/

/-- Modulo 2, an element where both predicates hold counts like one where neither does. -/
theorem bodd_countP_xor {α : Type} (p q : α → Bool) (l : List α) :
    (l.countP fun a => p a ^^ q a).bodd = ((l.countP p).bodd ^^ (l.countP q).bodd) := by
  simp only [bodd_countP]
  induction l with
  | nil => rfl
  | cons a l ih =>
    rw [List.foldr_cons, ih]
    simp only [List.foldr_cons, Bool.xor_assoc, Bool.xor_left_comm]

theorem oddParity_xor (a c : Byte) : oddParity (a ^^^ c) = (oddParity a ^^ oddParity c) := by
  simp only [oddParity_eq_bodd_countP, BitVec.getLsbD_xor, bodd_countP_xor]

theorem oddParity_two_pow : ∀ i < 8, oddParity (BitVec.ofNat 8 (2 ^ i)) = true := by
  decide

theorem oddParity_xor_two_pow (b : Byte) (i : Nat) (hi : i < 8) :
    oddParity (b ^^^ BitVec.ofNat 8 (2 ^ i)) = !oddParity b := by
  rw [oddParity_xor, oddParity_two_pow i hi, Bool.xor_true]

/-- An even number and the next differ in bit 0 alone. -/
theorem oddParity_two_mul_add_one (n : Nat) :
    oddParity (BitVec.ofNat 8 (2 * n + 1)) = !oddParity (BitVec.ofNat 8 (2 * n)) := by
  have hbit : BitVec.ofNat 8 (2 * n + 1) = BitVec.ofNat 8 (2 * n) ^^^ BitVec.ofNat 8 (2 ^ 0) := by
    rw [← BitVec.ofNat_xor, pow_zero, Nat.xor_one_of_even (even_two_mul n)]
  rw [hbit, oddParity_xor_two_pow _ 0 (by omega)]

/-- A predicate that holds of one of each `2 n` and `2 n + 1` holds of half the numbers. -/
theorem countP_range_two_mul {p : Nat → Bool} (h : ∀ n, p (2 * n + 1) = !p (2 * n)) (k : Nat) :
    (List.range (2 * k)).countP p = k := by
  induction k with
  | zero => rfl
  | succ k ih =>
    rw [Nat.mul_succ, List.range_succ, List.range_succ, List.countP_append, List.countP_append, ih]
    cases hp : p (2 * k) <;> simp [h, hp]

/-- Settles O34: linearity is that of a count modulo 2; inverting a bit is XOR with a byte of odd parity, and so one
byte of each pair `2 n`, `2 n + 1` gives `true`. -/
theorem parityLaws : Obligations.ParityLaws :=
  ⟨oddParity_xor, oddParity_xor_two_pow, countP_range_two_mul oddParity_two_mul_add_one 128, oddParity_reflect,
    oddParity_eq_xor⟩

/-! ## The command (R152) -/

theorem boolWord_eq_ite (b : Bool) : boolWord b = if b then 1 else 0 := by
  cases b <;> rfl

theorem exec_parity_running {s : State} (b : Byte) (herr : s.status.err = false) :
    exec (.parity b) s = .next (ok (boolWord (oddParity b)) s) :=
  unlessHalted_running herr

/-- Settles O16: the halted check, then the fold's bit as the exclusive or of the eight. -/
theorem parityCommand : Obligations.ParityCommand := by
  intro b s
  refine ⟨fun herr => unlessHalted_halted herr, fun herr => ?_⟩
  rw [exec_parity_running b herr, boolWord_eq_ite, oddParity_eq_xor]
  rfl

end Sys2Proof.Machine
end

section
/-! SUPPORT. The checksum comparator and the status read (45_check_status.md): CRC_CHECK (R158), its agreement with
CRC_FINAL (R166), the validation sequence (R159) and RD_STATUS (R160); the statements of 45_check_status.md settled
from them. -/

namespace Sys2Proof.Machine

/-! ## CRC_CHECK (R158, R166) -/

/-- The comparator's answer: 1 on a match of all 64 bits, else 0. -/
theorem exec_crcCheck_running {s : State} (e : Word) (herr : s.status.err = false) :
    exec (.crcCheck e) s =
      .next (ok (if zext64 (finalize s.params (remOf s)) = e then 1 else 0) s) := by
  rw [exec, execCrcCheck, unlessHalted_running herr, boolWord_eq_ite]
  simp only [beq_iff_eq]

/-- A W-bit value held in 64 bits has no bit at or above `W`. -/
theorem zext64_ne_of_high_bit {w : Nat} (v : BitVec w) {e : Word} {j : Nat} (hj : w ≤ j) (he : e.getLsbD j = true) :
    zext64 v ≠ e := by
  rintro rfl
  simp [zext64, BitVec.getLsbD_of_ge v j hj] at he

/-- Settles O20: the halted check, then the comparison, which an `e` with a bit at or above `W` fails. -/
theorem crcCheckCommand : Obligations.CrcCheckCommand := by
  intro e s _
  refine ⟨fun herr => unlessHalted_halted herr, fun herr => exec_crcCheck_running e herr, ?_⟩
  rintro herr ⟨j, hj, he⟩
  rw [exec_crcCheck_running e herr, if_neg (zext64_ne_of_high_bit _ hj he)]
  rfl

/-- Settles O52: CRC_CHECK compares `e` with the very word CRC_FINAL answers. -/
theorem checkAgreesWithFinal : Obligations.CheckAgreesWithFinal := by
  intro s e herr
  refine ⟨_, _, exec_crcFinal_running herr, exec_crcCheck_running e herr, ?_⟩
  by_cases hc : zext64 (finalize s.params (remOf s)) = e <;> simp [hc]

/-! ## The validation sequence (R159) -/

/-- CRC_INIT, one command per item of `m`, and CRC_CHECK: the last response tells whether the finalized remainder
is `e`. -/
theorem steps_issue_crcCheck {s : State} {α : Type} {cmd : α → Instr} {upd : BitVec s.params.W → α → BitVec s.params.W}
    (hl : s.params.legal = true) (herr : s.status.err = false) (hupd : ∀ r a, UpdatesRem s (cmd a) r (upd r a))
    (m : List α) (e : Word) :
    ∃ t, steps (m.length + 2) (issue (.crcInit :: (m.map cmd ++ [.crcCheck e])) s) = .next t ∧
      t.responses.head? =
        some ⟨0x00, if zext64 (finalize s.params (m.foldl upd (initial s.params))) = e then 1 else 0⟩ := by
  have hcheck := exec_crcCheck_running (s := answeredOk s (m.foldl upd (initial s.params)) (m.length + 1)) e herr
  rw [remOf_answeredOk hl] at hcheck
  exact ⟨_, (steps_issue_crcSequence hl herr hupd m (.crcCheck e)).trans hcheck, rfl⟩

/-- Settles O51: the sequence with REF_BYTE per byte, and over a valid table with either byte command per byte, takes
`REM` through the reference steps of the message. -/
theorem validateRuns : Obligations.ValidateRuns := by
  refine ⟨fun s m e hl herr => steps_issue_crcCheck hl herr (updatesRem_refByte hl herr) m e,
    fun s m e h herr htv => ?_⟩
  have hrun := steps_issue_crcCheck h.legal herr
    (updatesRem_byteCommand h.legal herr htv (h.tableMatches htv)) m e
  rw [← List.foldl_map (f := Prod.snd) (g := refStep s.params)] at hrun
  exact hrun

/-! ## RD_STATUS (R160) -/

/-- A value of at most 64 bits has the same bits when held in 64. -/
theorem getLsbD_zext64 {w : Nat} (hw : w ≤ 64) (v : BitVec w) (j : Nat) : (zext64 v).getLsbD j = v.getLsbD j := by
  rw [zext64, BitVec.getLsbD_setWidth]
  by_cases hj : j < 64
  · simp [hj]
  · simp [hj, BitVec.getLsbD_of_ge v j (by omega)]

/-- Bit `j` of RD_STATUS's answer is bit `j` of the status byte. -/
theorem getLsbD_zext64_statusByte (st : Status) (j : Nat) :
    (zext64 (statusByte st)).getLsbD j = (statusByte st).getLsbD j :=
  getLsbD_zext64 (by decide) _ j

theorem extractLsb'_zext64_statusByte (st : Status) :
    (zext64 (statusByte st)).extractLsb' 4 4 = st.ecode := by
  obtain ⟨_, _, _, hcode⟩ := statusByteLayout st
  rw [← hcode]
  apply BitVec.eq_of_getLsbD_eq
  intro i _
  rw [BitVec.getLsbD_extractLsb', BitVec.getLsbD_extractLsb', getLsbD_zext64_statusByte]

/-- The status of a block that keeps the invariants: running, or halted by one of the three faults, by TableNotBuilt
only with no valid table. -/
theorem Inv.status_cases {s : State} (h : Inv s) :
    (s.status.err = false ∧ s.status.ecode = 0) ∨ (s.status.err = true ∧ s.status.ecode = 1) ∨
      (s.status.err = true ∧ s.status.ecode = 2 ∧ s.status.tv = false) ∨
      (s.status.err = true ∧ s.status.ecode = 3) := by
  have hle : ∀ c : BitVec 4, c.toNat ≤ 3 → c = 0 ∨ c = 1 ∨ c = 2 ∨ c = 3 := by decide
  have herr : s.status.ecode ≠ 0 → s.status.err = true := by simpa using mt h.errCode.1
  rcases hle _ h.codeLegal with hc | hc | hc | hc
  · exact .inl ⟨h.errCode.2 hc, hc⟩
  · exact .inr (.inl ⟨herr (by simp [hc]), hc⟩)
  · exact .inr (.inr (.inl ⟨herr (by simp [hc]), hc, h.notBuilt hc⟩))
  · exact .inr (.inr (.inr ⟨herr (by simp [hc]), hc⟩))

/-- The seven values of R160: `TV` is free while running and in two of the three halted states. -/
theorem Inv.statusByte_mem {s : State} (h : Inv s) :
    statusByte s.status ∈ ([0x00, 0x01, 0x12, 0x13, 0x22, 0x32, 0x33] : List Byte) := by
  rcases h.status_cases with ⟨he, hc⟩ | ⟨he, hc⟩ | ⟨he, hc, ht⟩ | ⟨he, hc⟩
  · cases ht : s.status.tv <;> simp [statusByte, he, hc, ht]
  · cases ht : s.status.tv <;> simp [statusByte, he, hc, ht]
  · simp [statusByte, he, hc, ht]
  · cases ht : s.status.tv <;> simp [statusByte, he, hc, ht]

/-- Settles O24: the answer is the status byte zero-extended, with its layout of R25; in a state of the invariants
it is one of the seven. -/
theorem rdStatusCommand : Obligations.RdStatusCommand := by
  refine ⟨fun s => ?_, fun s h => h.statusByte_mem⟩
  have hbit (j : Nat) := (getLsbD_zext64_statusByte s.status j).trans (getLsbD_statusByte s.status j)
  refine ⟨_, rfl, hbit 0, hbit 1, hbit 2, hbit 3, extractLsb'_zext64_statusByte _, fun j hj => ?_⟩
  rw [getLsbD_zext64_statusByte, BitVec.getLsbD_of_ge _ j hj]

end Sys2Proof.Machine
end

section
/-! SUPPORT. The faults, the halted state and the order of checks (60_exceptions.md): each outcome of the checks of
R177 as an equation of `exec` or `step`; the statements of 60_exceptions.md settled from them. -/

namespace Sys2Proof.Machine

/-! ## The checks of an executed command (R173, R177) -/

section Checks
variable {i : Instr} {s t : State} {f : FaultCode}

/-- The halted check stands in every command but RD_STATUS. -/
theorem exec_halted (hi : i ≠ .rdStatus) (herr : s.status.err = true) :
    exec i s = .next (respond rcHalted 0 s) := by
  cases i with
  | rdStatus => exact absurd rfl hi
  | reflect | parity | crcInit | refByte | fastByte | crcFinal | crcCheck | buildTable | tblRd =>
    exact unlessHalted_halted herr

/-- A command's precondition speaks of no pending event. -/
theorem ownFault_withEvents (s : State) (es : List Event) (i : Instr) :
    ownFault { s with events := es } i = ownFault s i := by
  cases i <;> rfl

/-- A running block raises the fault of a violated precondition. -/
theorem exec_ownFault (herr : s.status.err = false) (hf : ownFault s i = some f) :
    exec i s = .next (raise f s) := by
  cases i with
  | reflect n v =>
    obtain ⟨hn, rfl⟩ : 64 < n.toNat ∧ FaultCode.reflectRange = f := by simpa [ownFault] using hf
    exact (unlessHalted_running herr).trans (requireCount_above s _ hn)
  | fastByte b =>
    obtain ⟨htv, rfl⟩ : s.status.tv = false ∧ FaultCode.tableNotBuilt = f := by simpa [ownFault] using hf
    exact exec_fastByte_notBuilt b herr htv
  | tblRd d =>
    obtain ⟨htv, rfl⟩ : s.status.tv = false ∧ FaultCode.tableNotBuilt = f := by simpa [ownFault] using hf
    exact (unlessHalted_running herr).trans (requireTable_invalid htv)
  | parity | crcInit | refByte | crcFinal | crcCheck | buildTable | rdStatus => cases hf

/-- A running block raises nothing but the command's own fault, and that is what sets `ERR` (R172). -/
theorem raise_of_exec_err (h : exec i s = .next t) (herr : s.status.err = false) (ht : t.status.err = true) :
    ∃ f, ownFault s i = some f ∧ t = raise f s := by
  obtain ⟨hhalt, _⟩ | ⟨_, hraise⟩ | ⟨_, hf, _⟩ := exec_next_cases h
  · cases herr.symm.trans hhalt
  · exact hraise
  · rw [(exec_faultBits_eq h hf).1, herr] at ht
    cases ht

theorem Executed.responses_eq (h : Executed i s t) :
    ∃ data, t.responses = ⟨rcOk, data⟩ :: s.responses := by
  obtain ⟨data, ⟨_, _, rfl⟩ | ⟨_, _, rfl⟩ | ⟨_, rfl⟩⟩ := h
  · exact ⟨data, rfl⟩
  · exact ⟨data, rfl⟩
  · exact ⟨data, rfl⟩

/-- With every check passed the command executes: it answers code 0x00 and the block keeps running. -/
theorem exec_executes (hs : TableReadable s) (herr : s.status.err = false) (hf : ownFault s i = none) :
    ∃ t data, exec i s = .next t ∧ t.status.err = false ∧ t.responses = ⟨rcOk, data⟩ :: s.responses := by
  obtain ⟨t, ht⟩ := exec_answers hs i
  have hrun : t.status.err = false := (exec_faultBits_eq ht hf).1.trans herr
  obtain ⟨hhalt, _⟩ | ⟨_, f, hf', _⟩ | ⟨_, _, hx⟩ := exec_next_cases ht
  · cases herr.symm.trans hhalt
  · cases hf.symm.trans hf'
  · obtain ⟨data, hdata⟩ := hx.responses_eq
    exact ⟨t, data, ht, hrun, hdata⟩

/-- IllegalCommand is no command's own fault. -/
theorem ownFault_ne_illegalCommand (s : State) (i : Instr) : ownFault s i ≠ some .illegalCommand := by
  cases i with
  | reflect | fastByte | tblRd => simp [ownFault]
  | parity | crcInit | refByte | crcFinal | crcCheck | buildTable | rdStatus => exact nofun

theorem ecodeOf_eq_one (h : ecodeOf f = 1) : f = .illegalCommand := by
  cases f with
  | illegalCommand => rfl
  | tableNotBuilt | reflectRange => exact absurd h (by decide)

/-- No command latches code 1 (R174). -/
theorem exec_ecode_ne_one (h : exec i s = .next t) (hcode : s.status.ecode ≠ 1) : t.status.ecode ≠ 1 := by
  obtain ⟨_, _, rfl⟩ | ⟨_, f, hf, rfl⟩ | ⟨_, hf, _⟩ := exec_next_cases h
  · exact hcode
  · exact fun hf1 => ownFault_ne_illegalCommand s i (ecodeOf_eq_one hf1 ▸ hf)
  · exact (exec_faultBits_eq h hf).2 ▸ hcode

end Checks

/-! ## The checks of a pending command word (R173, R174, R177) -/

/-- 0x3000 is the one word of RD_STATUS. -/
theorem decode_eq_rdStatus_iff {cw : CmdWord} {opd : Word} : decode cw opd = .ok .rdStatus ↔ cw = 0x3000 := by
  constructor
  · intro h
    exact (encodesAs_of_decode h).1.symm
  · rintro rfl
    rfl

/-- A word that selects no row does not decode. -/
theorem decode_error_of_selects_none {cw : CmdWord} {opd : Word} (h : ∀ r ∈ opcodeRows, selects cw r = false) :
    ∃ e, decode cw opd = .error e := by
  cases hd : decode cw opd with
  | error e => exact ⟨e, rfl⟩
  | ok i => cases (h _ (rowOf_mem i)).symm.trans (selects_rowOf_of_decode hd)

section Pending
variable {s t : State} {c : Command} {rest : List Event}

theorem step_rdStatus (hl : s.params.legal = true) (he : s.events = .command c :: rest) (hcw : c.cw = 0x3000) :
    step s = .next (ok (zext64 (statusByte s.status)) { s with events := rest }) :=
  step_decoded hl he (decode_eq_rdStatus_iff.2 hcw)

theorem step_halted (hl : s.params.legal = true) (he : s.events = .command c :: rest) (hcw : c.cw ≠ 0x3000)
    (herr : s.status.err = true) : step s = .next (respond rcHalted 0 { s with events := rest }) := by
  cases hd : decode c.cw c.opd with
  | ok i =>
    have hi : i ≠ .rdStatus := by
      rintro rfl
      exact hcw (decode_eq_rdStatus_iff.1 hd)
    exact (step_decoded hl he hd).trans (exec_halted hi herr)
  | error e => exact (step_undecoded hl he hd).trans (unlessHalted_halted herr)

theorem step_undecoded_running (hl : s.params.legal = true) (he : s.events = .command c :: rest)
    (herr : s.status.err = false) (hd : ∃ e, decode c.cw c.opd = .error e) :
    step s = .next (raise .illegalCommand { s with events := rest }) := by
  obtain ⟨e, hd⟩ := hd
  exact (step_undecoded hl he hd).trans (unlessHalted_running herr)

end Pending

/-- Settles O11: the halted check comes before decoding for every word but 0x3000; a step that is no reset keeps the
status of a halted block. -/
theorem haltedBlockAnswersHalted : Obligations.HaltedBlockAnswersHalted := by
  refine ⟨fun s c rest hl herr he => ⟨fun hcw => step_halted hl he hcw herr, step_rdStatus hl he⟩,
    fun s t herr h ht => ?_, fun s rest hl he => ⟨_, step_reset hl he, rfl⟩⟩
  by_contra hreset
  have hst : t.status = s.status := ((flagsHoldUntilReset s t h (not_exists.1 hreset)).2 herr).2.2
  rw [hst, herr] at ht
  cases ht

/-- Settles O12: one equation of `step` or `exec` for each of the five outcomes. -/
theorem checksInOrder : Obligations.ChecksInOrder := by
  intro s c rest hl he
  refine ⟨step_rdStatus hl he, step_halted hl he, fun _ => step_undecoded_running hl he,
    fun i f _ herr hd hf => ?_, fun i _ herr hd hf hinv => ?_⟩
  · exact (step_decoded hl he hd).trans (exec_ownFault herr ((ownFault_withEvents s rest i).trans hf))
  · have hreadable : TableReadable { s with events := rest } := hinv.tableMatches.tableReadable
    obtain ⟨t, data, ht, hrun, hdata⟩ := exec_executes hreadable herr ((ownFault_withEvents s rest i).trans hf)
    exact ⟨t, data, (step_decoded hl he hd).trans ht, ht, hrun, hdata⟩

/-- Settles O13: `raise` written out, for a violated precondition and for an illegal word. -/
theorem raiseLatchesAndResponds : Obligations.RaiseLatchesAndResponds :=
  ⟨⟨rfl, rfl, rfl⟩, fun _ _ _ herr h ht => raise_of_exec_err h herr ht, fun _ herr => unlessHalted_running herr,
    fun _ _ _ herr h => (exec_halted_sameBlock h herr).2.2⟩

/-- Settles O14: a word decodes exactly when it selects a row, and a word that decodes does not latch code 1. -/
theorem illegalCommandRaised : Obligations.IllegalCommandRaised := by
  intro s c rest hl herr hcode he
  refine ⟨fun hrows => step_undecoded_running hl he herr (decode_error_of_selects_none hrows), fun t h ht => ?_⟩
  cases hd : decode c.cw c.opd with
  | error e => exact selects_eq_false_of_decode hd
  | ok i =>
    have hx : exec i { s with events := rest } = .next t := (step_decoded hl he hd).symm.trans h
    have hne : s.status.ecode ≠ 1 := by simp [hcode]
    exact absurd ht (exec_ecode_ne_one hx hne)

end Sys2Proof.Machine
end
